-- ==== Sys2Proof/Word.lean ====
section
/-! DEFINITION. The widths of the hardware's values (spec/00_scope.md R8, R9): bytes, 16-bit words, and the
4-, 8- and 12-bit operand fields of an instruction word. Every value is unsigned and every sum wraps at its
width, which is what `BitVec` arithmetic does. -/

namespace Sys2Proof

/-- A register or memory byte (R20, R28). -/
abbrev Byte := BitVec 8

/-- A 16-bit quantity: an instruction word, `I`, `pc`, a stack entry (R22, R23, R25, R71). -/
abbrev Word := BitVec 16

/-- The 4-bit fields `x`, `y` (a register number) and `n` (a sprite height) of R72. -/
abbrev Nibble := BitVec 4

/-- The 12-bit field `nnn` of R72. -/
abbrev Addr12 := BitVec 12

end Sys2Proof
end

