-- ==== Sys2Proof/Config.lean ====
section
/-! DEFINITION. The parameters of spec/00_scope.md R5 and the one free value of the machine: the random byte of
`Cxkk` (45_index_random.md R161). The parameter `FONT`, which R5 marks OPEN, is a field of the state
(Machine/State.lean; log 1). -/

namespace Sys2Proof.Config

/-- `ADDR_BITS`: the significant bits of an address, which a 16-bit register carries (R5). -/
@[simp] abbrev addrBits : Nat := 12

/-- `MEM_SIZE`: 4096, the byte locations of the one memory space, one for each value of `ADDR_BITS` bits (R5, R52). -/
@[simp] abbrev memSize : Nat := 2 ^ addrBits

/-- `FONT_BASE` and `FONT_SIZE`: 80 bytes, 16 glyphs of 5 bytes, from address 0 (R5, R33). -/
@[simp] abbrev fontBase : Nat := 0x000
@[simp] abbrev numGlyphs : Nat := 16
@[simp] abbrev glyphBytes : Nat := 5
@[simp] abbrev fontSize : Nat := numGlyphs * glyphBytes

/-- `PROG_BASE` and `ROM_MAX`: where a program is loaded and its largest size (R5, R243). -/
@[simp] abbrev progBase : Nat := 0x200
@[simp] abbrev romMax : Nat := 3584

/-- `FETCH_LO` and `FETCH_HI`: the inclusive bounds on pc at a fetch (R5, R51). -/
@[simp] abbrev fetchLo : Nat := 0x200
@[simp] abbrev fetchHi : Nat := 0xFFE

/-- `NUM_REGS` (R5, R20). -/
@[simp] abbrev numRegs : Nat := 16

/-- `STACK_DEPTH` (R5, R25; 90_conflicts.md C2; log 5). -/
@[simp] abbrev stackDepth : Nat := 16

/-- `SP_BITS`: the width of the stack pointer, which holds 0 to `STACK_DEPTH` inclusive (R5, R24; 90_conflicts.md
C3; log 5). -/
@[simp] abbrev spBits : Nat := 5

/-- `FB_W` and `FB_H` (R5, R29). -/
@[simp] abbrev fbW : Nat := 64
@[simp] abbrev fbH : Nat := 32

/-- `NUM_KEYS` (R5, R30). -/
@[simp] abbrev numKeys : Nat := 16

/-- `INSTR_BYTES`: the bytes of every instruction (R5, R71). -/
@[simp] abbrev instrBytes : Nat := 2

/-- FREE VALUE. `rndByte k` is the byte `rnd` that the host supplies to the `k`-th draw (R7, R161): any value
0 to 255, under no law. It has no body, so no proof can know it (log 2). -/
opaque rndByte : Nat → Byte

end Sys2Proof.Config
end

