-- ==== Sys2Proof/Machine/State.lean ====
section
/-! DEFINITION. The state of the machine (spec/10_state.md), the reasons a step can stop (60_exceptions.md R203),
and the state after reset (R39, R240). Plain data throughout. -/

namespace Sys2Proof.Machine

/-- Memory: the bytes that differ from the reset contents, in strictly rising order of address (log 21). What an
unlisted address reads as is `initialByte` of Machine/Memory.lean. -/
abbrev Memory := List Host.Cell

structure State where
  /-- V0 to VF (R20, R21). -/
  v : Vector Byte Config.numRegs
  /-- The index register I (R22). -/
  i : Word
  /-- The program counter (R23). -/
  pc : Word
  /-- The number of return addresses on the stack, 0 to `STACK_DEPTH` (R24). -/
  sp : Fin (Config.stackDepth + 1)
  /-- The call stack (R25). -/
  stack : Vector Word Config.stackDepth
  /-- The delay timer (R26). -/
  dt : Byte
  /-- The sound timer (R27). -/
  st : Byte
  /-- The 4096 bytes of memory (R28). -/
  mem : Memory
  /-- The framebuffer: bit `x + 64·y` is pixel (x, y) (R29). -/
  fb : BitVec (Config.fbW * Config.fbH)
  /-- The key state, true meaning pressed (R30). -/
  keys : Vector Bool Config.numKeys
  /-- The one-shot output flag display_flag (R31). -/
  displayFlag : Bool
  /-- The one-shot output flag sound_flag (R32). -/
  soundFlag : Bool
  /-- MODEL'S OWN (log 2): how many random bytes have been drawn. -/
  draws : Nat
  /-- MODEL'S OWN (log 1): the parameter `FONT`, never written. -/
  font : Font
deriving DecidableEq, Repr

/-- The diagnostics of R203. A step that reports one is a fault (R222): it is SAFE to stop there, since the block
would report the same diagnostic again on every later step until the host intervenes (R201; log 3). -/
inductive Fault where
  /-- Raised by the decode phase of `step`: the fetched word is no instruction (R204). Safe. -/
  | unknownInstruction (w : Word)
  /-- Raised by the fetch phase of `step`: pc is outside 0x200 to 0xFFE (R205). Safe. -/
  | fetchOutOfRange (pc : Word)
  /-- Raised by DRW, LD_B, ST_REGS, LD_REGS: the lowest data address above 0xFFF (R206). Safe. -/
  | memoryOutOfRange (addr : Nat)
  /-- Raised by CALL: the stack is full; carries sp (R207). Safe. -/
  | stackOverflow (sp : Nat)
  /-- Raised by RET: the stack is empty; carries 0 (R208). Safe. -/
  | stackUnderflow (sp : Nat)
  /-- Raised by DRW: the first sprite pixel outside the grid (R209). Safe. -/
  | drawOutOfRange (col row : Nat)
  /-- Raised by SKP and SKNP: Vx is above 15 (R210). Safe. -/
  | keyIndexOutOfRange (v : Byte)
deriving DecidableEq, Repr

/-- No instruction of this hardware is refused; the one constructor is the interface's. -/
inductive Refusal where
  /-- Raised by `exec` for an instruction with no meaning yet; there is none. Safe. -/
  | notModelled (mnemonic : String)
deriving DecidableEq, Repr

/-- The outcome of an instruction or of a step. -/
abbrev Outcome := Host.Outcome State Fault Refusal

/-- The state after reset, for a given font and number of bytes drawn: every value is R39's. -/
def resetWith (font : Font) (draws : Nat) : State where
  v := Vector.replicate _ 0
  i := 0
  pc := 0x200
  sp := 0
  stack := Vector.replicate _ 0
  dt := 0
  st := 0
  mem := []
  fb := 0
  keys := Vector.replicate _ false
  displayFlag := false
  soundFlag := false
  draws := draws
  font := font

/-- The machine right after reset (R39, R240), with the customary font and no byte drawn yet (logs 1, 2). -/
def State.reset : State := resetWith defaultFont 0

end Sys2Proof.Machine
end

