-- ==== Sys2Proof/Machine/Memory.lean ====
section
/-! DEFINITION. Memory as data (spec/20_memory.md): what an unlisted address reads as, reading and writing one byte,
and the canonical form. No function here checks a range: `accessFault` of Machine/Ops.lean does, before any access
(R56). -/

namespace Sys2Proof.Machine

/-- What an address that no cell lists reads as: the reset contents, `FONT` in 0x000 to 0x04F and 0 above (R39,
R240, R52). -/
def initialByte (font : Font) (a : Nat) : Byte :=
  if h : Config.fontBase ≤ a ∧ a - Config.fontBase < Config.fontSize then
    (font[(a - Config.fontBase) / Config.glyphBytes]'(by simp at h ⊢; omega))[
      (a - Config.fontBase) % Config.glyphBytes]'(by simp; omega)
  else 0

/-- The byte a cell list holds for an address. -/
def lookupCell : Memory → Nat → Option Byte
  | [], _ => none
  | (k, b) :: rest, a => if k = a then some b else lookupCell rest a

/-- The list with the cell of an address taken out. -/
def eraseCell : Memory → Nat → Memory
  | [], _ => []
  | (k, b) :: rest, a => if k = a then eraseCell rest a else (k, b) :: eraseCell rest a

/-- The list with an address's cell put in its place in rising order. -/
def insertCell : Memory → Nat → Byte → Memory
  | [], a, b => [(a, b)]
  | (k, c) :: rest, a, b =>
    if a < k then (a, b) :: (k, c) :: rest
    else if a = k then (a, b) :: rest
    else (k, c) :: insertCell rest a b

/-- Read one byte (R53). -/
def Memory.read (font : Font) (m : Memory) (a : Nat) : Byte := (lookupCell m a).getD (initialByte font a)

/-- Write one byte (R54): writing what an unlisted address reads as takes the cell out. -/
def Memory.write (font : Font) (m : Memory) (a : Nat) (b : Byte) : Memory :=
  if b = initialByte font a then eraseCell m a else insertCell m a b

/-- Write bytes at rising addresses (R57, R243). -/
def Memory.writeBytes (font : Font) (m : Memory) (a : Nat) : List Byte → Memory
  | [] => m
  | b :: rest => Memory.writeBytes font (Memory.write font m a b) (a + 1) rest

/-- The canonical form: addresses strictly rising from `lo`, each below `MEM_SIZE`, and no cell that says what an
unlisted address reads as. -/
def Memory.wfFrom (font : Font) (lo : Nat) : Memory → Bool
  | [] => true
  | (k, b) :: rest =>
    decide (lo ≤ k) && decide (k < Config.memSize) && decide (b ≠ initialByte font k)
      && Memory.wfFrom font (k + 1) rest

/-- The canonical form of a whole memory, so that equal memories are equal lists. -/
def Memory.wf (font : Font) (m : Memory) : Bool := Memory.wfFrom font 0 m

end Sys2Proof.Machine
end

