-- ==== Sys2Proof/Machine/Ops.lean ====
section
/-! DEFINITION. The named operations over registers, memory, pc and the output flags that every meaning is written
with, and the one way an instruction ends in a diagnostic (spec/00_scope.md R9, 60_exceptions.md R201). -/

namespace Sys2Proof.Machine

/-! ### Registers -/

/-- The register number of VF (R21). -/
def VF : Nibble := 0xF

/-- `V[x]` (R9, R20). -/
def readV (s : State) (x : Nibble) : Byte := s.v[x.toNat]'x.isLt

/-- `V[x] <- b` (R9, R20): no register is hardwired. -/
def writeV (s : State) (x : Nibble) (b : Byte) : State := { s with v := s.v.set x.toNat b x.isLt }

/-- `I <- a` (R22). -/
def writeI (s : State) (a : Word) : State := { s with i := a }

/-! ### Memory -/

/-- `memory[a]` (R53). -/
def readMem (s : State) (a : Nat) : Byte := Memory.read s.font s.mem a

/-- `memory[a] <- b` (R54). -/
def writeMem (s : State) (a : Nat) (b : Byte) : State := { s with mem := Memory.write s.font s.mem a b }

/-- The bytes at `a`, `a + 1`, ..., `a + n − 1`. -/
def readBytes (s : State) (a n : Nat) : List Byte := (List.range n).map fun r => readMem s (a + r)

/-- `memory[a + k] <- bytes[k]` for every `k`, in rising order (R57). -/
def writeBytes (s : State) (a : Nat) (bytes : List Byte) : State :=
  { s with mem := Memory.writeBytes s.font s.mem a bytes }

/-- The check of R53, R54 and R56 over the `n` addresses from `a`, formed without wrap: the lowest of them above
0xFFF, if there is one. An access of no bytes has none. -/
def accessFault (a n : Nat) : Option Nat :=
  if a + n ≤ Config.memSize ∨ n = 0 then none else some (max a Config.memSize)

/-! ### Framebuffer and keys -/

/-- `fb[k]` (R29). -/
def pixel (s : State) (k : Nat) : Bool := s.fb.getLsbD k

/-- Some key is pressed (R172). -/
def anyKey (s : State) : Bool := s.keys.toList.any id

/-! ### Stack pointer -/

/-- sp as the register of `SP_BITS` bits that the host reads (R24, R38). -/
def spRegister (s : State) : BitVec Config.spBits := BitVec.ofNat Config.spBits s.sp.val

/-! ### Program counter -/

/-- `p + 2`, modulo 65536: the address of the word after the one at `p` (R10, `INSTR_BYTES` of R5). -/
def nextAddr (p : Word) : Word := p + BitVec.ofNat 16 Config.instrBytes

/-- `pc <- pc + 2` (R10). -/
def advance (s : State) : State := { s with pc := nextAddr s.pc }

/-- `pc <- pc + 4` when the condition holds, else `pc <- pc + 2` (R124). -/
def skipIf (c : Bool) (s : State) : State :=
  { s with pc := if c then nextAddr (nextAddr s.pc) else nextAddr s.pc }

/-- `pc <- a` (R10). -/
def jumpTo (a : Word) (s : State) : State := { s with pc := a }

/-! ### Diagnostics

There is no trap entry and no trap return (R214, R215): a diagnostic saves nothing, switches nothing and goes
nowhere. -/

/-- `display_flag <- false ; sound_flag <- false` (R70 phase 1). -/
def clearFlags (s : State) : State := { s with displayFlag := false, soundFlag := false }

/-- `raise D(info)`: the step ends at once (R201, R222). Every meaning calls it before its first write. -/
def raise (d : Fault) : Outcome := .fault d

/-- The state that a step which raised a diagnostic leaves: its entry state with the two flags cleared (R201). -/
def afterDiagnostic (s : State) : State := clearFlags s

/-- The code of a diagnostic (R203). -/
def Fault.code : Fault → Nat
  | .unknownInstruction _ => 1
  | .fetchOutOfRange _ => 2
  | .memoryOutOfRange _ => 3
  | .stackOverflow _ => 4
  | .stackUnderflow _ => 5
  | .drawOutOfRange _ _ => 6
  | .keyIndexOutOfRange _ => 7

end Sys2Proof.Machine
end

