-- ==== Sys2Proof/Machine/Operands.lean ====
section
/-! DEFINITION. The operand forms: immediates (spec/30_encoding.md R74), the effective address `I` plus an offset
(48_memory_ops.md), the glyph address (45 R163), the decimal digits (48 R190), and the sprite as pixels of the
grid (40_display.md R101, R103, R104). -/

namespace Sys2Proof.Machine

/-- `zext_16(nnn)` (R74). -/
def addrImm (nnn : Addr12) : Word := nnn.setWidth 16

/-- `zext_16(v)` of a register's byte (R113, R162, R163). -/
def wordOfByte (b : Byte) : Word := b.setWidth 16

/-- The base of every data access: `I` as a natural number, so that `I + r` does not wrap (R53). -/
def baseAddr (s : State) : Nat := s.i.toNat

/-- `5 * zext_16(v)`, from `FONT_BASE` = 0: where the glyph of digit `v` stands (R163). -/
def glyphAddr (b : Byte) : Word :=
  BitVec.ofNat 16 Config.fontBase + BitVec.ofNat 16 Config.glyphBytes * wordOfByte b

/-- Hundreds, tens and units of a byte (R190). -/
def decimalDigits (b : Byte) : List Byte :=
  [BitVec.ofNat 8 (b.toNat / 100), BitVec.ofNat 8 (b.toNat / 10 % 10), BitVec.ofNat 8 (b.toNat % 10)]

/-- `V0`, ..., `V(n−1)` (R191). -/
def firstRegs (s : State) (n : Nat) : List Byte := (List.range n).map fun k => readV s (BitVec.ofNat 4 k)

/-- `V[k] <- bytes[k]` for every `k`, in rising order (R192), from register `k` on. -/
def writeRegs (s : State) (k : Nat) : List Byte → State
  | [] => s
  | b :: rest => writeRegs (writeV s (BitVec.ofNat 4 k) b) (k + 1) rest

/-! ### Sprites -/

/-- The pixels (column, row) of one sprite row that are 1: bit 7 is column 0 (R103; log 13). -/
def rowPixels (col row : Nat) (b : Byte) : List (Nat × Nat) :=
  ((List.range 8).filter fun c => b.getLsbD (7 - c)).map fun c => (col + c, row)

/-- The pixels of a sprite that are 1, row by row and left to right (R101). -/
def spritePixels (col row : Nat) : List Byte → List (Nat × Nat)
  | [] => []
  | b :: rest => rowPixels col row b ++ spritePixels col (row + 1) rest

/-- A pixel outside the 64 × 32 grid (R104). -/
def offGrid (p : Nat × Nat) : Bool := decide (Config.fbW ≤ p.1) || decide (Config.fbH ≤ p.2)

/-- The framebuffer index of a pixel: row-major, `x + 64·y` (R29). -/
def pixelIndex (p : Nat × Nat) : Nat := p.1 + Config.fbW * p.2

/-- `fb[k] <- fb[k] XOR 1`, noting whether `fb[k]` was 1 (R101). -/
def plotPixel (acc : BitVec (Config.fbW * Config.fbH) × Bool) (p : Nat × Nat) :
    BitVec (Config.fbW * Config.fbH) × Bool :=
  (acc.1 ^^^ BitVec.twoPow _ (pixelIndex p), acc.2 || acc.1.getLsbD (pixelIndex p))

/-- All the pixels of a sprite in turn: the new framebuffer, and whether some pixel went from 1 to 0. -/
def plotSprite (fb : BitVec (Config.fbW * Config.fbH)) (ps : List (Nat × Nat)) :
    BitVec (Config.fbW * Config.fbH) × Bool :=
  ps.foldl plotPixel (fb, false)

end Sys2Proof.Machine
end

