-- ==== Sys2Proof/Machine/Flags.lean ====
section
/-! DEFINITION. Every flag the instructions compute into VF (spec/44_alu.md R151, 40_display.md R101), and the order
in which a flag and a result are written (R150; log 11). -/

namespace Sys2Proof.Machine

/-- `b2n(c)` (R9). -/
def b2n (c : Bool) : Byte := if c then 1 else 0

/-- The carry of `8xy4`: 1 when the true sum exceeds 255 (R144, R151). -/
def carryOfAdd (a b : Byte) : Byte := b2n (decide (255 < a.toNat + b.toNat))

/-- The not-borrow of `8xy5` and `8xy7`: 1 when minuend ≥ subtrahend (R145, R147, R151). -/
def notBorrow (minuend subtrahend : Byte) : Byte := b2n (decide (subtrahend.toNat ≤ minuend.toNat))

/-- The bit that `8xy6` shifts out: bit 0 (R146). -/
def lowBit (a : Byte) : Byte := a &&& 1

/-- The bit that `8xyE` shifts out: bit 7 (R148). -/
def highBit (a : Byte) : Byte := a >>> 7

/-- The two statements of a flag-writing instruction in their order (R150): the flag goes to VF first, and the
result, which goes to Vx, is computed from the registers as that write left them. -/
def flagThenResult (x : Nibble) (flag : Byte) (result : State → Byte) (s : State) : State :=
  let s1 := writeV s VF flag
  writeV s1 x (result s1)

end Sys2Proof.Machine
end

