-- ==== Sys2Proof/Machine/Alu.lean ====
section
/-! DEFINITION. Register-register arithmetic and logic (spec/44_alu.md). Bytes wrap modulo 256 (R151); the five
instructions with a flag go through `flagThenResult` (R150). -/

namespace Sys2Proof.Machine

/-- `8xy0`, LD Vx, Vy (R140). -/
def execLdReg (x y : Nibble) (s : State) : Outcome := .next (advance (writeV s x (readV s y)))

/-- `8xy1`, OR (R141). -/
def execOr (x y : Nibble) (s : State) : Outcome := .next (advance (writeV s x (readV s x ||| readV s y)))

/-- `8xy2`, AND (R142). -/
def execAnd (x y : Nibble) (s : State) : Outcome := .next (advance (writeV s x (readV s x &&& readV s y)))

/-- `8xy3`, XOR (R143). -/
def execXor (x y : Nibble) (s : State) : Outcome := .next (advance (writeV s x (readV s x ^^^ readV s y)))

/-- `8xy4`, ADD Vx, Vy (R144). -/
def execAddReg (x y : Nibble) (s : State) : Outcome :=
  .next (advance (flagThenResult x (carryOfAdd (readV s x) (readV s y)) (fun s1 => readV s1 x + readV s1 y) s))

/-- `8xy5`, SUB Vx, Vy (R145). -/
def execSub (x y : Nibble) (s : State) : Outcome :=
  .next (advance (flagThenResult x (notBorrow (readV s x) (readV s y)) (fun s1 => readV s1 x - readV s1 y) s))

/-- `8xy6`, SHR Vx (R146): Vy is neither read nor written (log 24). -/
def execShr (x _y : Nibble) (s : State) : Outcome :=
  .next (advance (flagThenResult x (lowBit (readV s x)) (fun s1 => readV s1 x >>> 1) s))

/-- `8xy7`, SUBN Vx, Vy (R147). -/
def execSubn (x y : Nibble) (s : State) : Outcome :=
  .next (advance (flagThenResult x (notBorrow (readV s y) (readV s x)) (fun s1 => readV s1 y - readV s1 x) s))

/-- `8xyE`, SHL Vx (R148): Vy is neither read nor written (log 24). -/
def execShl (x _y : Nibble) (s : State) : Outcome :=
  .next (advance (flagThenResult x (highBit (readV s x)) (fun s1 => readV s1 x <<< 1) s))

end Sys2Proof.Machine
end

