-- ==== Sys2Proof/Machine/ControlFlow.lean ====
section
/-! DEFINITION. Jumps, calls and returns (spec/41_control_flow.md). -/

namespace Sys2Proof.Machine

/-- `1nnn`, JP (R110). -/
def execJp (nnn : Addr12) (s : State) : Outcome := .next (jumpTo (addrImm nnn) s)

/-- `2nnn`, CALL (R111): the address pushed is the call's own, and a full stack is a diagnostic (log 8). -/
def execCall (nnn : Addr12) (s : State) : Outcome :=
  if h : s.sp.val < Config.stackDepth then
    .next (jumpTo (addrImm nnn)
      { s with stack := s.stack.set s.sp.val s.pc h, sp := ⟨s.sp.val + 1, Nat.succ_lt_succ h⟩ })
  else raise (.stackOverflow (spRegister s).toNat)

/-- `00EE`, RET (R112): the entry read keeps its value, and an empty stack is a diagnostic (log 8). -/
def execRet (s : State) : Outcome :=
  if h : 0 < s.sp.val then
    .next (jumpTo (nextAddr (s.stack[s.sp.val - 1]'(by have := s.sp.isLt; omega)))
      { s with sp := ⟨s.sp.val - 1, by have := s.sp.isLt; omega⟩ })
  else raise (.stackUnderflow 0)

/-- `Bnnn`, JP V0 (R113): the sum is not reduced to 12 bits (log 16). -/
def execJpV0 (nnn : Addr12) (s : State) : Outcome :=
  .next (jumpTo (addrImm nnn + wordOfByte (readV s 0)) s)

end Sys2Proof.Machine
end

