-- ==== Sys2Proof/Machine/Display.lean ====
section
/-! DEFINITION. The display instructions (spec/40_display.md). -/

namespace Sys2Proof.Machine

/-- `00E0`, CLS (R100); display_flag is set whatever the framebuffer held (log 14). -/
def execCls (s : State) : Outcome := .next (advance { s with fb := 0, displayFlag := true })

/-- `Dxyn`, DRW (R101): the coordinates are sampled before VF is written (R102; log 12), then memory is checked,
then the grid (R104, R212), and only then is anything written. -/
def execDrw (x y n : Nibble) (s : State) : Outcome :=
  match accessFault (baseAddr s) n.toNat with
  | some a => raise (.memoryOutOfRange a)
  | none =>
    let ps := spritePixels (readV s x).toNat (readV s y).toNat (readBytes s (baseAddr s) n.toNat)
    match ps.find? offGrid with
    | some p => raise (.drawOutOfRange p.1 p.2)
    | none =>
      let drawn := plotSprite s.fb ps
      .next (advance { writeV s VF (b2n drawn.2) with fb := drawn.1, displayFlag := true })

end Sys2Proof.Machine
end

