-- ==== Sys2Proof/Machine/Immediate.lean ====
section
/-! DEFINITION. The register-immediate instructions (spec/43_immediate.md). -/

namespace Sys2Proof.Machine

/-- `6xkk`, LD Vx, kk (R130). -/
def execLdImm (x : Nibble) (kk : Byte) (s : State) : Outcome := .next (advance (writeV s x kk))

/-- `7xkk`, ADD Vx, kk (R131): modulo 256, no flag. -/
def execAddImm (x : Nibble) (kk : Byte) (s : State) : Outcome :=
  .next (advance (writeV s x (readV s x + kk)))

end Sys2Proof.Machine
end

