-- ==== Sys2Proof/Machine/IndexRandom.lean ====
section
/-! DEFINITION. Index-register and random instructions (spec/45_index_random.md). -/

namespace Sys2Proof.Machine

/-- `Annn`, LD I, nnn (R160). -/
def execLdI (nnn : Addr12) (s : State) : Outcome := .next (advance (writeI s (addrImm nnn)))

/-- `Cxkk`, RND Vx, kk (R161): the free byte of this draw AND kk (log 2). -/
def execRnd (x : Nibble) (kk : Byte) (s : State) : Outcome :=
  .next (advance { writeV s x (Config.rndByte s.draws &&& kk) with draws := s.draws + 1 })

/-- `Fx1E`, ADD I, Vx (R162): modulo 65536, no flag. -/
def execAddI (x : Nibble) (s : State) : Outcome :=
  .next (advance (writeI s (s.i + wordOfByte (readV s x))))

/-- `Fx29`, LD F, Vx (R163): the whole byte is multiplied. -/
def execLdF (x : Nibble) (s : State) : Outcome := .next (advance (writeI s (glyphAddr (readV s x))))

end Sys2Proof.Machine
end

