-- ==== Sys2Proof/Machine/Keypad.lean ====
section
/-! DEFINITION. The keypad instructions (spec/46_keypad.md). -/

namespace Sys2Proof.Machine

/-- The key that Vx names and whether it is pressed; a value above 15 is a diagnostic (R170, R171; log 10). -/
def withKey (x : Nibble) (s : State) (k : Bool → Outcome) : Outcome :=
  if h : (readV s x).toNat < Config.numKeys then k s.keys[(readV s x).toNat]
  else raise (.keyIndexOutOfRange (readV s x))

/-- `Ex9E`, SKP Vx (R170). -/
def execSkp (x : Nibble) (s : State) : Outcome := withKey x s fun pressed => .next (skipIf pressed s)

/-- `ExA1`, SKNP Vx (R171). -/
def execSknp (x : Nibble) (s : State) : Outcome := withKey x s fun pressed => .next (skipIf (!pressed) s)

/-- `Fx0A`, WKEY Vx (R172): with no key pressed pc keeps its value and the step completes; no register is written
(log 24). -/
def execWkey (_x : Nibble) (s : State) : Outcome := .next (if anyKey s then advance s else s)

end Sys2Proof.Machine
end

