-- ==== Sys2Proof/Machine/MemoryOps.lean ====
section
/-! DEFINITION. The memory instructions (spec/48_memory_ops.md). I is never changed, and the whole range is checked
before the first access (R56). -/

namespace Sys2Proof.Machine

/-- Check the `n` addresses from I, then go on (R53, R54, R56; log 7). -/
def withAccess (n : Nat) (s : State) (k : State) : Outcome :=
  match accessFault (baseAddr s) n with
  | some a => raise (.memoryOutOfRange a)
  | none => .next k

/-- `Fx33`, LD B, Vx (R190): hundreds, tens and units at I, I+1, I+2. -/
def execLdB (x : Nibble) (s : State) : Outcome :=
  withAccess 3 s (advance (writeBytes s (baseAddr s) (decimalDigits (readV s x))))

/-- `Fx55`, LD [I], x (R191): `x` is a count, so V0 to V(x−1) are stored (log 24). -/
def execStRegs (x : Nibble) (s : State) : Outcome :=
  withAccess x.toNat s (advance (writeBytes s (baseAddr s) (firstRegs s x.toNat)))

/-- `Fx65`, LD x, [I] (R192): `x` is a count, so V0 to V(x−1) are loaded (log 24). -/
def execLdRegs (x : Nibble) (s : State) : Outcome :=
  withAccess x.toNat s (advance (writeRegs s 0 (readBytes s (baseAddr s) x.toNat)))

end Sys2Proof.Machine
end

