-- ==== Sys2Proof/Machine/Skips.lean ====
section
/-! DEFINITION. The conditional skips on registers (spec/42_skips.md R120 to R124). -/

namespace Sys2Proof.Machine

/-- `3xkk`, SE Vx, kk (R120). -/
def execSeImm (x : Nibble) (kk : Byte) (s : State) : Outcome := .next (skipIf (readV s x == kk) s)

/-- `4xkk`, SNE Vx, kk (R121). -/
def execSneImm (x : Nibble) (kk : Byte) (s : State) : Outcome := .next (skipIf (readV s x != kk) s)

/-- `5xy0`, SE Vx, Vy (R122). -/
def execSeReg (x y : Nibble) (s : State) : Outcome := .next (skipIf (readV s x == readV s y) s)

/-- `9xy0`, SNE Vx, Vy (R123). -/
def execSneReg (x y : Nibble) (s : State) : Outcome := .next (skipIf (readV s x != readV s y) s)

end Sys2Proof.Machine
end

