-- ==== Sys2Proof/Machine/Timers.lean ====
section
/-! DEFINITION. The timer instructions (spec/47_timers.md). `tick_timers` is no instruction: it is in
Machine/Operations.lean. -/

namespace Sys2Proof.Machine

/-- `Fx07`, LD Vx, DT (R180). -/
def execLdVxDt (x : Nibble) (s : State) : Outcome := .next (advance (writeV s x s.dt))

/-- `Fx15`, LD DT, Vx (R181). -/
def execLdDtVx (x : Nibble) (s : State) : Outcome := .next (advance { s with dt := readV s x })

/-- `Fx18`, LD ST, Vx (R182). -/
def execLdStVx (x : Nibble) (s : State) : Outcome := .next (advance { s with st := readV s x })

end Sys2Proof.Machine
end

