-- ==== Sys2Proof/Syntax.lean ====
section
/-! DEFINITION. The 34 instructions of spec/30_encoding.md R76, one constructor per row of the opcode table, in
the table's order. An operand is a bit vector of its field's width (R72), so every value of a field is an operand
and no other value is (R78). Fields the hardware decodes and does not use (`y` of `8xy6` and `8xyE`, `x` of
`Fx0A`) are operands too, so that no bit of a word is lost. -/

namespace Sys2Proof

inductive Instr where
  /-- `00E0` clear the framebuffer (R100). -/
  | cls
  /-- `00EE` return (R112). -/
  | ret
  /-- `1nnn` jump (R110). -/
  | jp (nnn : Addr12)
  /-- `2nnn` call (R111). -/
  | call (nnn : Addr12)
  /-- `3xkk` skip if Vx = kk (R120). -/
  | seImm (x : Nibble) (kk : Byte)
  /-- `4xkk` skip if Vx ≠ kk (R121). -/
  | sneImm (x : Nibble) (kk : Byte)
  /-- `5xy0` skip if Vx = Vy (R122). -/
  | seReg (x y : Nibble)
  /-- `6xkk` Vx = kk (R130). -/
  | ldImm (x : Nibble) (kk : Byte)
  /-- `7xkk` Vx = Vx + kk (R131). -/
  | addImm (x : Nibble) (kk : Byte)
  /-- `8xy0` Vx = Vy (R140). -/
  | ldReg (x y : Nibble)
  /-- `8xy1` (R141). -/
  | or (x y : Nibble)
  /-- `8xy2` (R142). -/
  | and (x y : Nibble)
  /-- `8xy3` (R143). -/
  | xor (x y : Nibble)
  /-- `8xy4` add with carry out (R144). -/
  | addReg (x y : Nibble)
  /-- `8xy5` Vx − Vy (R145). -/
  | sub (x y : Nibble)
  /-- `8xy6` shift Vx right; `y` is not used (R146). -/
  | shr (x y : Nibble)
  /-- `8xy7` Vy − Vx (R147). -/
  | subn (x y : Nibble)
  /-- `8xyE` shift Vx left; `y` is not used (R148). -/
  | shl (x y : Nibble)
  /-- `9xy0` skip if Vx ≠ Vy (R123). -/
  | sneReg (x y : Nibble)
  /-- `Annn` I = nnn (R160). -/
  | ldI (nnn : Addr12)
  /-- `Bnnn` jump to nnn + V0 (R113). -/
  | jpV0 (nnn : Addr12)
  /-- `Cxkk` Vx = rnd AND kk (R161). -/
  | rnd (x : Nibble) (kk : Byte)
  /-- `Dxyn` draw a sprite of n rows (R101). -/
  | drw (x y n : Nibble)
  /-- `Ex9E` skip if key Vx is pressed (R170). -/
  | skp (x : Nibble)
  /-- `ExA1` skip if key Vx is not pressed (R171). -/
  | sknp (x : Nibble)
  /-- `Fx07` Vx = dt (R180). -/
  | ldVxDt (x : Nibble)
  /-- `Fx0A` wait for a key; `x` is not used (R172). -/
  | wkey (x : Nibble)
  /-- `Fx15` dt = Vx (R181). -/
  | ldDtVx (x : Nibble)
  /-- `Fx18` st = Vx (R182). -/
  | ldStVx (x : Nibble)
  /-- `Fx1E` I = I + Vx (R162). -/
  | addI (x : Nibble)
  /-- `Fx29` I = 5·Vx (R163). -/
  | ldF (x : Nibble)
  /-- `Fx33` store the decimal digits of Vx (R190). -/
  | ldB (x : Nibble)
  /-- `Fx55` store V0..V(x−1); `x` is a count (R191). -/
  | stRegs (x : Nibble)
  /-- `Fx65` load V0..V(x−1); `x` is a count (R192). -/
  | ldRegs (x : Nibble)
deriving DecidableEq, Repr

end Sys2Proof
end

