-- ==== Sys2Proof/WellFormed.lean ====
section
/-! DEFINITION. What is well formed. An `Instr` carries each operand at its field's exact width, so every term is
an instruction of the table and there is nothing to check on it: "every value of `x`, `y`, `n`, `kk`, `nnn` is
legal in every row" (30_encoding.md R78). What can be ill formed is what comes from outside: a ROM image that does
not fit (70_reset_and_hazards.md R243), and an instruction as an assembler may write it (30_encoding.md R79). -/

namespace Sys2Proof

/-- A ROM fits in program space: at most `ROM_MAX` = 3584 bytes (R243, 93_implementation_defined.md U16). -/
abbrev romFits (bytes : List Byte) : Prop := bytes.length ≤ Config.romMax

/-- The form the assembler of R79 writes: `SHR Vx` and `SHL Vx` "encode `y` = 0 when written with one operand".
The hardware runs the other forms as well (R146, R148). -/
def Instr.assemblerForm : Instr → Bool
  | .shr _ y => y == 0
  | .shl _ y => y == 0
  | .cls | .ret | .jp _ | .call _ | .seImm _ _ | .sneImm _ _ | .seReg _ _ | .ldImm _ _ | .addImm _ _
  | .ldReg _ _ | .or _ _ | .and _ _ | .xor _ _ | .addReg _ _ | .sub _ _ | .subn _ _ | .sneReg _ _
  | .ldI _ | .jpV0 _ | .rnd _ _ | .drw _ _ _ | .skp _ | .sknp _ | .ldVxDt _ | .wkey _ | .ldDtVx _
  | .ldStVx _ | .addI _ | .ldF _ | .ldB _ | .stRegs _ | .ldRegs _ => true

end Sys2Proof
end

