-- ==== Sys2Proof/Decode.lean ====
section
/-! DEFINITION. The decoder and the encoder of spec/30_encoding.md, both written from the opcode map of R76 and the
fields of R72, the map itself as a table, and `decodeTableWord` for the host. -/

namespace Sys2Proof

/-! ### Fields of an instruction word (R72) -/

/-- `op` = w[15:12], the instruction group. -/
def fieldOp (w : Word) : Nibble := w.extractLsb' 12 4
/-- `x` = w[11:8]. -/
def fieldX (w : Word) : Nibble := w.extractLsb' 8 4
/-- `y` = w[7:4]. -/
def fieldY (w : Word) : Nibble := w.extractLsb' 4 4
/-- `n` = w[3:0]. -/
def fieldN (w : Word) : Nibble := w.extractLsb' 0 4
/-- `kk` = w[7:0]. -/
def fieldKK (w : Word) : Byte := w.extractLsb' 0 8
/-- `nnn` = w[11:0]. -/
def fieldNNN (w : Word) : Addr12 := w.extractLsb' 0 12

/-! ### Decoding -/

/-- Why bytes do not decode. -/
inductive DecodeReject where
  /-- The word matches no row of R76: an unknown instruction (R77). -/
  | unknownWord (w : Word)
  /-- Fewer than two bytes: every instruction is two bytes (R71). -/
  | truncated
deriving DecidableEq, Repr

/-- Group 0: only the two fixed words are instructions (R75). -/
def decodeGroup0 (w : Word) : Except DecodeReject Instr :=
  if w = 0x00E0#16 then .ok .cls
  else if w = 0x00EE#16 then .ok .ret
  else .error (.unknownWord w)

/-- Group 8: the secondary opcode is the low nibble (R75). -/
def decodeGroup8 (w : Word) : Except DecodeReject Instr :=
  match fieldN w with
  | 0x0#4 => .ok (.ldReg (fieldX w) (fieldY w))
  | 0x1#4 => .ok (.or (fieldX w) (fieldY w))
  | 0x2#4 => .ok (.and (fieldX w) (fieldY w))
  | 0x3#4 => .ok (.xor (fieldX w) (fieldY w))
  | 0x4#4 => .ok (.addReg (fieldX w) (fieldY w))
  | 0x5#4 => .ok (.sub (fieldX w) (fieldY w))
  | 0x6#4 => .ok (.shr (fieldX w) (fieldY w))
  | 0x7#4 => .ok (.subn (fieldX w) (fieldY w))
  | 0xE#4 => .ok (.shl (fieldX w) (fieldY w))
  | _ => .error (.unknownWord w)

/-- Group E: the secondary opcode is the low byte (R75). -/
def decodeGroupE (w : Word) : Except DecodeReject Instr :=
  match fieldKK w with
  | 0x9E#8 => .ok (.skp (fieldX w))
  | 0xA1#8 => .ok (.sknp (fieldX w))
  | _ => .error (.unknownWord w)

/-- Group F: the secondary opcode is the low byte (R75). -/
def decodeGroupF (w : Word) : Except DecodeReject Instr :=
  match fieldKK w with
  | 0x07#8 => .ok (.ldVxDt (fieldX w))
  | 0x0A#8 => .ok (.wkey (fieldX w))
  | 0x15#8 => .ok (.ldDtVx (fieldX w))
  | 0x18#8 => .ok (.ldStVx (fieldX w))
  | 0x1E#8 => .ok (.addI (fieldX w))
  | 0x29#8 => .ok (.ldF (fieldX w))
  | 0x33#8 => .ok (.ldB (fieldX w))
  | 0x55#8 => .ok (.stRegs (fieldX w))
  | 0x65#8 => .ok (.ldRegs (fieldX w))
  | _ => .error (.unknownWord w)

/-- Dispatch "on the instruction group (and ... a secondary sub-opcode field)" (R75); groups 5 and 9 need a low
nibble of 0 (90_conflicts.md C11). -/
def decodeWord (w : Word) : Except DecodeReject Instr :=
  match fieldOp w with
  | 0x0#4 => decodeGroup0 w
  | 0x1#4 => .ok (.jp (fieldNNN w))
  | 0x2#4 => .ok (.call (fieldNNN w))
  | 0x3#4 => .ok (.seImm (fieldX w) (fieldKK w))
  | 0x4#4 => .ok (.sneImm (fieldX w) (fieldKK w))
  | 0x5#4 => if fieldN w = 0x0#4 then .ok (.seReg (fieldX w) (fieldY w)) else .error (.unknownWord w)
  | 0x6#4 => .ok (.ldImm (fieldX w) (fieldKK w))
  | 0x7#4 => .ok (.addImm (fieldX w) (fieldKK w))
  | 0x8#4 => decodeGroup8 w
  | 0x9#4 => if fieldN w = 0x0#4 then .ok (.sneReg (fieldX w) (fieldY w)) else .error (.unknownWord w)
  | 0xA#4 => .ok (.ldI (fieldNNN w))
  | 0xB#4 => .ok (.jpV0 (fieldNNN w))
  | 0xC#4 => .ok (.rnd (fieldX w) (fieldKK w))
  | 0xD#4 => .ok (.drw (fieldX w) (fieldY w) (fieldN w))
  | 0xE#4 => decodeGroupE w
  | 0xF#4 => decodeGroupF w
  | _ => .error (.unknownWord w)

/-- The word of two consecutive bytes, the byte at the lower address first: big-endian (20_memory.md R50). -/
def wordOfBytes (hi lo : Byte) : Word := hi ++ lo

/-- The two bytes of a word, in memory order (R50). -/
def highByte (w : Word) : Byte := w.extractLsb' 8 8
def lowByte (w : Word) : Byte := w.extractLsb' 0 8

/-- Decode the instruction at the head of a byte stream, with the bytes after it. -/
def decodeBytes : List Byte → Except DecodeReject (Instr × List Byte)
  | hi :: lo :: rest =>
    match decodeWord (wordOfBytes hi lo) with
    | .ok i => .ok (i, rest)
    | .error e => .error e
  | _ => .error .truncated

/-! ### Encoding, by the formats of R73 -/

/-- Format NNN. -/
def wordNNN (op : Nibble) (nnn : Addr12) : Word := op ++ nnn
/-- Format XKK; format X is XKK with the secondary opcode in `kk`. -/
def wordXKK (op x : Nibble) (kk : Byte) : Word := (op ++ x : Byte) ++ kk
/-- Format XYN; format XY is XYN with the secondary opcode in `n`. -/
def wordXYN (op x y n : Nibble) : Word := (op ++ x : Byte) ++ (y ++ n : Byte)

/-- The word of an instruction (R76). -/
def encode : Instr → Word
  | .cls => 0x00E0#16
  | .ret => 0x00EE#16
  | .jp nnn => wordNNN 0x1 nnn
  | .call nnn => wordNNN 0x2 nnn
  | .seImm x kk => wordXKK 0x3 x kk
  | .sneImm x kk => wordXKK 0x4 x kk
  | .seReg x y => wordXYN 0x5 x y 0x0
  | .ldImm x kk => wordXKK 0x6 x kk
  | .addImm x kk => wordXKK 0x7 x kk
  | .ldReg x y => wordXYN 0x8 x y 0x0
  | .or x y => wordXYN 0x8 x y 0x1
  | .and x y => wordXYN 0x8 x y 0x2
  | .xor x y => wordXYN 0x8 x y 0x3
  | .addReg x y => wordXYN 0x8 x y 0x4
  | .sub x y => wordXYN 0x8 x y 0x5
  | .shr x y => wordXYN 0x8 x y 0x6
  | .subn x y => wordXYN 0x8 x y 0x7
  | .shl x y => wordXYN 0x8 x y 0xE
  | .sneReg x y => wordXYN 0x9 x y 0x0
  | .ldI nnn => wordNNN 0xA nnn
  | .jpV0 nnn => wordNNN 0xB nnn
  | .rnd x kk => wordXKK 0xC x kk
  | .drw x y n => wordXYN 0xD x y n
  | .skp x => wordXKK 0xE x 0x9E
  | .sknp x => wordXKK 0xE x 0xA1
  | .ldVxDt x => wordXKK 0xF x 0x07
  | .wkey x => wordXKK 0xF x 0x0A
  | .ldDtVx x => wordXKK 0xF x 0x15
  | .ldStVx x => wordXKK 0xF x 0x18
  | .addI x => wordXKK 0xF x 0x1E
  | .ldF x => wordXKK 0xF x 0x29
  | .ldB x => wordXKK 0xF x 0x33
  | .stRegs x => wordXKK 0xF x 0x55
  | .ldRegs x => wordXKK 0xF x 0x65

/-- The two bytes of an instruction as a ROM holds them (R50, R80). -/
def encodeBytes (i : Instr) : List Byte := [highByte (encode i), lowByte (encode i)]

/-! ### The opcode map as a table (R76) -/

/-- One row of the opcode map: its mnemonic in opcode_table.json, its mask and its match. -/
structure OpcodeRow where
  mnemonic : String
  mask : Word
  value : Word
deriving DecidableEq, Repr

/-- Rows 1 to 9. -/
def opcodeRowsImmediate : List OpcodeRow :=
  [⟨"CLS", 0xFFFF, 0x00E0⟩, ⟨"RET", 0xFFFF, 0x00EE⟩, ⟨"JP", 0xF000, 0x1000⟩, ⟨"CALL", 0xF000, 0x2000⟩,
   ⟨"SE_IMM", 0xF000, 0x3000⟩, ⟨"SNE_IMM", 0xF000, 0x4000⟩, ⟨"SE_REG", 0xF00F, 0x5000⟩,
   ⟨"LD_IMM", 0xF000, 0x6000⟩, ⟨"ADD_IMM", 0xF000, 0x7000⟩]

/-- Rows 10 to 19. -/
def opcodeRowsRegister : List OpcodeRow :=
  [⟨"LD_REG", 0xF00F, 0x8000⟩, ⟨"OR", 0xF00F, 0x8001⟩, ⟨"AND", 0xF00F, 0x8002⟩, ⟨"XOR", 0xF00F, 0x8003⟩,
   ⟨"ADD_REG", 0xF00F, 0x8004⟩, ⟨"SUB", 0xF00F, 0x8005⟩, ⟨"SHR", 0xF00F, 0x8006⟩, ⟨"SUBN", 0xF00F, 0x8007⟩,
   ⟨"SHL", 0xF00F, 0x800E⟩, ⟨"SNE_REG", 0xF00F, 0x9000⟩]

/-- Rows 20 to 34. -/
def opcodeRowsIndexAndDevice : List OpcodeRow :=
  [⟨"LD_I", 0xF000, 0xA000⟩, ⟨"JP_V0", 0xF000, 0xB000⟩, ⟨"RND", 0xF000, 0xC000⟩, ⟨"DRW", 0xF000, 0xD000⟩,
   ⟨"SKP", 0xF0FF, 0xE09E⟩, ⟨"SKNP", 0xF0FF, 0xE0A1⟩, ⟨"LD_VX_DT", 0xF0FF, 0xF007⟩, ⟨"WKEY", 0xF0FF, 0xF00A⟩,
   ⟨"LD_DT_VX", 0xF0FF, 0xF015⟩, ⟨"LD_ST_VX", 0xF0FF, 0xF018⟩, ⟨"ADD_I", 0xF0FF, 0xF01E⟩,
   ⟨"LD_F", 0xF0FF, 0xF029⟩, ⟨"LD_B", 0xF0FF, 0xF033⟩, ⟨"ST_REGS", 0xF0FF, 0xF055⟩,
   ⟨"LD_REGS", 0xF0FF, 0xF065⟩]

/-- The 34 rows of R76. -/
def opcodeMap : List OpcodeRow := opcodeRowsImmediate ++ opcodeRowsRegister ++ opcodeRowsIndexAndDevice

/-- "A word selects an instruction exactly when `w AND mask = match` for that instruction's row" (R75). -/
def OpcodeRow.selects (r : OpcodeRow) (w : Word) : Bool := w &&& r.mask == r.value

/-- The mnemonic of an instruction's row in opcode_table.json. -/
def Instr.mnemonic : Instr → String
  | .cls => "CLS" | .ret => "RET" | .jp _ => "JP" | .call _ => "CALL"
  | .seImm _ _ => "SE_IMM" | .sneImm _ _ => "SNE_IMM" | .seReg _ _ => "SE_REG"
  | .ldImm _ _ => "LD_IMM" | .addImm _ _ => "ADD_IMM"
  | .ldReg _ _ => "LD_REG" | .or _ _ => "OR" | .and _ _ => "AND" | .xor _ _ => "XOR"
  | .addReg _ _ => "ADD_REG" | .sub _ _ => "SUB" | .shr _ _ => "SHR" | .subn _ _ => "SUBN"
  | .shl _ _ => "SHL" | .sneReg _ _ => "SNE_REG"
  | .ldI _ => "LD_I" | .jpV0 _ => "JP_V0" | .rnd _ _ => "RND" | .drw _ _ _ => "DRW"
  | .skp _ => "SKP" | .sknp _ => "SKNP"
  | .ldVxDt _ => "LD_VX_DT" | .wkey _ => "WKEY" | .ldDtVx _ => "LD_DT_VX" | .ldStVx _ => "LD_ST_VX"
  | .addI _ => "ADD_I" | .ldF _ => "LD_F" | .ldB _ => "LD_B" | .stRegs _ => "ST_REGS" | .ldRegs _ => "LD_REGS"

/-! ### For the host -/

/-- The instruction of a table word: `w`'s low `nbits` bits are the 16-bit word, stored high byte first (R50) and
read back by the decoder. -/
def decodeTableWord (nbits w : Nat) : Option Instr :=
  let word : Word := BitVec.ofNat 16 (w % 2 ^ nbits)
  match decodeBytes [highByte word, lowByte word] with
  | .ok (i, _) => some i
  | .error _ => none

end Sys2Proof
end

