-- ==== Sys2Proof/Machine/Fetch.lean ====
section
/-! DEFINITION. Instruction fetch (spec/20_memory.md R50, R51) and the placing of a word where it is fetched. -/

namespace Sys2Proof.Machine

/-- pc is in 0x200 to 0xFFE, the legal range at a fetch (R51); odd values are legal (R55). -/
def fetchable (pc : Word) : Bool := decide (Config.fetchLo ≤ pc.toNat) && decide (pc.toNat ≤ Config.fetchHi)

/-- `Fetch(pc)`: two bytes, the first the high one (R50). -/
def fetchWord (s : State) : Word := wordOfBytes (readMem s s.pc.toNat) (readMem s (s.pc.toNat + 1))

/-- Phases 2 to 4 of the step cycle (R70), in the order of R212: the fetch range, then the decoding. -/
def fetchDecode (s : State) : Except Fault Instr :=
  if fetchable s.pc then
    match decodeWord (fetchWord s) with
    | .ok i => .ok i
    | .error _ => .error (.unknownInstruction (fetchWord s))
  else .error (.fetchOutOfRange s.pc)

/-- The state with a word stored at pc, high byte first; a pc from which no fetch is legal goes to 0x200 first. -/
def placeWord (s : State) (w : Word) : State :=
  let s1 := if fetchable s.pc then s else { s with pc := 0x200 }
  writeBytes s1 s1.pc.toNat [highByte w, lowByte w]

end Sys2Proof.Machine
end

