-- ==== Sys2Proof/Machine/Step.lean ====
section
/-! DEFINITION. One step of the engine (spec/30_encoding.md R70), and the host's way to place an instruction. -/

namespace Sys2Proof.Machine

/-- `step(rnd)` (R70): clear the two flags, check the fetch range, fetch, decode, execute. The byte `rnd` is the
free value that the instruction draws (log 2). -/
def step (s : State) : Host.Outcome State Fault Refusal :=
  match fetchDecode (clearFlags s) with
  | .ok i => exec i (clearFlags s)
  | .error d => raise d

/-- `s` with the 16-bit table word `w` where the next step fetches: at pc, high byte first (R50; log 22). -/
def State.withFetchWord (s : State) (nbits w : Nat) : State := placeWord s (BitVec.ofNat 16 (w % 2 ^ nbits))

end Sys2Proof.Machine
end

