-- ==== Sys2Proof/Machine/Operations.lean ====
section
/-! DEFINITION. The five atomic operations of the host (spec/60_exceptions.md R223) and their interleavings
(00_scope.md R6; log 19). -/

namespace Sys2Proof.Machine

/-- `reset()` (R240): every state to its reset value; the parameter `FONT` and the count of bytes drawn, which are
not the spec's state, go on (log 29). -/
def resetOp (s : State) : State := resetWith s.font s.draws

/-- The result of `load_program` (R211). -/
inductive LoadResult where
  | ok
  | capacityExceeded
deriving DecidableEq, Repr

/-- `load_program(bytes)` (R243). -/
def loadProgram (bytes : List Byte) (s : State) : State × LoadResult :=
  if romFits bytes then (writeBytes s Config.progBase bytes, .ok) else (s, .capacityExceeded)

/-- `set_key(k, b)` (R37). -/
def setKey (k : Fin Config.numKeys) (b : Bool) (s : State) : State := { s with keys := s.keys.set k.val b k.isLt }

/-- The delay timer's half of a tick (R184). -/
def tickDelay (s : State) : State := if s.dt = 0 then s else { s with dt := s.dt - 1 }

/-- The sound timer's half of a tick: the test is on st before the decrement (R184, 90_conflicts.md C6). -/
def tickSound (s : State) : State := if s.st = 0 then s else { s with soundFlag := true, st := s.st - 1 }

/-- `tick_timers()` (R184). -/
def tickTimers (s : State) : State := tickSound (tickDelay s)

/-- `step(rnd)` as the host sees it (R200, R201): the state it leaves and its diagnostic. No step is refused. -/
def stepReport (s : State) : State × Option Fault :=
  match step s with
  | .next t => (t, none)
  | .fault d => (afterDiagnostic s, some d)
  | .refused _ => (afterDiagnostic s, none)

/-- What the host may do between any two moments (R223). -/
inductive Operation where
  | reset
  | loadProgram (bytes : List Byte)
  | setKey (k : Fin Config.numKeys) (b : Bool)
  | step
  | tickTimers
deriving DecidableEq, Repr

/-- What an operation answers (R200, R211, R223). -/
inductive Result where
  | done
  | diag (d : Option Fault)
  | load (r : LoadResult)
deriving DecidableEq, Repr

/-- One operation. -/
def perform (o : Operation) (s : State) : State × Result :=
  match o with
  | .reset => (resetOp s, .done)
  | .loadProgram bytes => ((loadProgram bytes s).1, .load (loadProgram bytes s).2)
  | .setKey k b => (setKey k b s, .done)
  | .step => ((stepReport s).1, .diag (stepReport s).2)
  | .tickTimers => (tickTimers s, .done)

/-- Any sequence of operations, each reading what the one before left (R6). -/
def performAll : List Operation → State → State
  | [], s => s
  | o :: rest, s => performAll rest (perform o s).1

/-- `n` ticks in a row (R186). -/
def ticks (n : Nat) (s : State) : State := performAll (List.replicate n .tickTimers) s

end Sys2Proof.Machine
end

