-- ==== Sys2Proof/Safety.lean ====
section
/-! DEFINITION. The terms in which statements about the machine are made: the parts of the state and what stays the
same, what a state fetches, when a step faults (spec/60_exceptions.md R203), what a sprite covers (40_display.md),
and what a safe run and the end of a run are (R222, 70_reset_and_hazards.md R249). -/

namespace Sys2Proof.Machine

/-! ### Parts of the state, for frames -/

/-- Every item of state that 10_state.md lists, one register, stack entry, byte, pixel or key at a time, and the
model's own two fields. -/
inductive Part where
  | reg (x : Nibble)
  | index
  | pc
  | sp
  | stackEntry (k : Fin Config.stackDepth)
  | dt
  | st
  | byte (a : Nat)
  | pixel (k : Nat)
  | key (k : Fin Config.numKeys)
  | displayFlag
  | soundFlag
  | draws
  | font
deriving DecidableEq, Repr

/-- The part holds in `t` what it holds in `s`. -/
def Part.Same : Part → State → State → Prop
  | .reg x, s, t => readV t x = readV s x
  | .index, s, t => t.i = s.i
  | .pc, s, t => t.pc = s.pc
  | .sp, s, t => t.sp = s.sp
  | .stackEntry k, s, t => t.stack[k.val] = s.stack[k.val]
  | .dt, s, t => t.dt = s.dt
  | .st, s, t => t.st = s.st
  | .byte a, s, t => readMem t a = readMem s a
  | .pixel k, s, t => Machine.pixel t k = Machine.pixel s k
  | .key k, s, t => t.keys[k.val] = s.keys[k.val]
  | .displayFlag, s, t => t.displayFlag = s.displayFlag
  | .soundFlag, s, t => t.soundFlag = s.soundFlag
  | .draws, s, t => t.draws = s.draws
  | .font, s, t => t.font = s.font

/-- The frame: every part that is not named as changed is the same in `t` as in `s`. -/
def KeepsAllBut (changed : Part → Prop) (s t : State) : Prop := ∀ p : Part, ¬ changed p → p.Same s t

/-! ### Fetching -/

/-- pc is in the legal range and the two bytes there, high byte first, are `w` (R50, R51). -/
def Fetches (s : State) (w : Word) : Prop :=
  0x200 ≤ s.pc.toNat ∧ s.pc.toNat ≤ 0xFFE ∧ w = readMem s s.pc.toNat ++ readMem s (s.pc.toNat + 1)

/-- The word at pc is the instruction `i`. -/
def FetchesInstr (s : State) (i : Instr) : Prop := ∃ w, Fetches s w ∧ decodeWord w = .ok i

/-- A row of the opcode map (R76): exactly the words with `w AND mask = value` decode to `mk w`. -/
def Encoded (mask value : Word) (mk : Word → Instr) : Prop :=
  ∀ w : Word, w &&& mask = value ↔ decodeWord w = .ok (mk w)

/-! ### Sprites (R101, R104) -/

/-- Row `r` and column `c` of the `n`-row sprite at I hold a 1 bit; bit 7 is column 0 (R103; log 13). -/
def SpriteBit (s : State) (n : Nibble) (r c : Nat) : Prop :=
  r < n.toNat ∧ c < 8 ∧ (readMem s (s.i.toNat + r)).getLsbD (7 - c) = true

/-- The sprite, drawn at (Vx, Vy), has a 1 bit over pixel index `k` (R29). -/
def Covers (s : State) (x y n : Nibble) (k : Nat) : Prop :=
  ∃ r c, SpriteBit s n r c ∧ k = ((readV s x).toNat + c) + 64 * ((readV s y).toNat + r)

/-- Row `r` and column `c` of a sprite drawn at (Vx, Vy) are outside the 64 × 32 grid (R104). -/
def OutsideGrid (s : State) (x y : Nibble) (r c : Nat) : Prop :=
  63 < (readV s x).toNat + c ∨ 31 < (readV s y).toNat + r

/-! ### Diagnostics (R203) -/

/-- How many bytes from I an instruction accesses as data (R56). -/
def dataBytes : Instr → Nat
  | .drw _ _ n => n.toNat
  | .ldB _ => 3
  | .stRegs x => x.toNat
  | .ldRegs x => x.toNat
  | .cls | .ret | .jp _ | .call _ | .seImm _ _ | .sneImm _ _ | .seReg _ _ | .ldImm _ _ | .addImm _ _
  | .ldReg _ _ | .or _ _ | .and _ _ | .xor _ _ | .addReg _ _ | .sub _ _ | .shr _ _ | .subn _ _ | .shl _ _
  | .sneReg _ _ | .ldI _ | .jpV0 _ | .rnd _ _ | .skp _ | .sknp _ | .ldVxDt _ | .wkey _ | .ldDtVx _
  | .ldStVx _ | .addI _ | .ldF _ => 0

/-- `a` is the lowest of the `n` addresses from `base` that exceeds 0xFFF (R206, R212). -/
def LowestAbove (a base n : Nat) : Prop :=
  (∃ r, r < n ∧ a = base + r) ∧ 0xFFF < a ∧ ∀ r, r < n → 0xFFF < base + r → a ≤ base + r

/-- When a step entered in `s` reports a diagnostic, and with which information (R203 to R210, R212). -/
def FaultCondition (s : State) : Fault → Prop
  | .fetchOutOfRange p => p = s.pc ∧ (s.pc.toNat < 0x200 ∨ 0xFFE < s.pc.toNat)
  | .unknownInstruction w => Fetches s w ∧ ∀ r ∈ opcodeMap, w &&& r.mask ≠ r.value
  | .memoryOutOfRange a => ∃ i, FetchesInstr s i ∧ LowestAbove a s.i.toNat (dataBytes i)
  | .stackOverflow d => (∃ nnn, FetchesInstr s (.call nnn)) ∧ s.sp.val = 16 ∧ d = 16
  | .stackUnderflow d => FetchesInstr s .ret ∧ s.sp.val = 0 ∧ d = 0
  | .drawOutOfRange col row =>
    ∃ x y n r c, FetchesInstr s (.drw x y n) ∧ (∀ q, q < n.toNat → s.i.toNat + q ≤ 0xFFF) ∧
      SpriteBit s n r c ∧ OutsideGrid s x y r c ∧
      col = (readV s x).toNat + c ∧ row = (readV s y).toNat + r ∧
      ∀ r' c', SpriteBit s n r' c' → OutsideGrid s x y r' c' → r < r' ∨ (r = r' ∧ c ≤ c')
  | .keyIndexOutOfRange v =>
    ∃ x, (FetchesInstr s (.skp x) ∨ FetchesInstr s (.sknp x)) ∧ v = readV s x ∧ 15 < v.toNat

/-! ### Runs -/

/-- The same outcome with a function applied to the next state. -/
def mapNext (f : State → State) : Outcome → Outcome
  | .next t => .next (f t)
  | .fault d => .fault d
  | .refused r => .refused r

/-- No diagnostic is reported in the first `n` steps (R222). -/
def SafeRun (n : Nat) (s : State) : Prop := ∀ k, k ≤ n → ∃ t, core.run k s = .next t

/-- The end of a run: pc is at a jump to itself (R249; log 23). -/
def EndOfRun (s : State) : Prop := ∃ nnn : Addr12, FetchesInstr s (.jp nnn) ∧ nnn.toNat = s.pc.toNat

end Sys2Proof.Machine
end

