-- ==== Sys2Proof/Certificates/Slice0/Obligations.lean ====
section
/-! DEFINITION. The statements for the provers, from the numbered rules of spec/. `Encoded`, `KeepsAllBut`,
`Fetches`, `SpriteBit`, `FaultCondition` and the like are Safety.lean's. -/

open Sys2Proof Sys2Proof.Machine

/-! ### Encoding (30_encoding.md) -/

/-- Words written out bit by bit from R76, one or two of each format, decode to the instruction they stand for,
and 0x0000 and 0x5011 are rejected as unknown words. That those two are unknown is the spec's decision D19
(90_conflicts.md C1, C11; R77; log 18). -/
def Obligations.SampleWordsDecode : Prop :=
  decodeWord 0b0000000011100000#16 = .ok .cls ∧
  decodeWord 0b0000000011101110#16 = .ok .ret ∧
  decodeWord 0b0001001000110100#16 = .ok (.jp 0x234) ∧
  decodeWord 0b0011000110101011#16 = .ok (.seImm 0x1 0xAB) ∧
  decodeWord 0b0101001101000000#16 = .ok (.seReg 0x3 0x4) ∧
  decodeWord 0b1000001000111110#16 = .ok (.shl 0x2 0x3) ∧
  decodeWord 0b1100001100001111#16 = .ok (.rnd 0x3 0x0F) ∧
  decodeWord 0b1101000000010101#16 = .ok (.drw 0x0 0x1 0x5) ∧
  decodeWord 0b1110000110011110#16 = .ok (.skp 0x1) ∧
  decodeWord 0b1111001101100101#16 = .ok (.ldRegs 0x3) ∧
  decodeWord 0x0000#16 = .error (.unknownWord 0x0000) ∧
  decodeWord 0x5011#16 = .error (.unknownWord 0x5011)

/-- Every instruction, with every operand at every value its field admits, is read back from its own word, and from
its two bytes in memory order whatever follows them (R50, R71, R72, R76). -/
def Obligations.DecodeOfEncodeIsTheInstruction : Prop :=
  ∀ (i : Instr) (rest : List Byte),
    decodeWord (encode i) = .ok i ∧ decodeBytes (encodeBytes i ++ rest) = .ok (i, rest)

/-- Each word has at most one meaning and each instruction one word: a word that decodes is the encoding of what it
decodes to. -/
def Obligations.EncodeOfDecodeIsTheWord : Prop :=
  ∀ (w : Word) (i : Instr), decodeWord w = .ok i → encode i = w

/-- The unknown words are exactly those R77 lists, group by group. That they are unknown is the spec's decision D19
(90_conflicts.md C1, C11; log 18). -/
def Obligations.UnknownWordsAreTheListedOnes : Prop :=
  ∀ w : Word, decodeWord w = .error (.unknownWord w) ↔
    (w.toNat / 4096 = 0x0 ∧ w.toNat ≠ 0x00E0 ∧ w.toNat ≠ 0x00EE) ∨
    (w.toNat / 4096 = 0x5 ∧ w.toNat % 16 ≠ 0) ∨
    (w.toNat / 4096 = 0x8 ∧ w.toNat % 16 ∈ [0x8, 0x9, 0xA, 0xB, 0xC, 0xD, 0xF]) ∨
    (w.toNat / 4096 = 0x9 ∧ w.toNat % 16 ≠ 0) ∨
    (w.toNat / 4096 = 0xE ∧ w.toNat % 256 ∉ [0x9E, 0xA1]) ∨
    (w.toNat / 4096 = 0xF ∧ w.toNat % 256 ∉ [0x07, 0x0A, 0x15, 0x18, 0x1E, 0x29, 0x33, 0x55, 0x65])

/-- A word selects an instruction exactly when `w AND mask = match` for that instruction's row of the opcode map,
and no word matches two rows (R75, R76; the mnemonics are the spec's decision D23, log 27). -/
def Obligations.RowMatchesExactlyItsInstruction : Prop :=
  (∀ (w : Word) (r : OpcodeRow), r ∈ opcodeMap →
    (w &&& r.mask = r.value ↔ ∃ i, decodeWord w = .ok i ∧ i.mnemonic = r.mnemonic)) ∧
  (∀ (w : Word) (r q : OpcodeRow), r ∈ opcodeMap → q ∈ opcodeMap →
    w &&& r.mask = r.value → w &&& q.mask = q.value → r = q)

/-! ### The step cycle and its diagnostics (30_encoding.md R70, 60_exceptions.md) -/

/-- When the two bytes at pc, high byte first, decode to `i` and pc is in the fetch range, a step is `exec` of `i` in
the state with the two output flags cleared (R70 phases 1, 3, 4, 5; R50). The fetch range is the spec's decision D5
(log 6). -/
def Obligations.StepRunsTheDecodedInstruction : Prop :=
  ∀ (s : State) (i : Instr), 0x200 ≤ s.pc.toNat → s.pc.toNat ≤ 0xFFE →
    decodeWord (readMem s s.pc.toNat ++ readMem s (s.pc.toNat + 1)) = .ok i →
    step s = exec i { s with displayFlag := false, soundFlag := false }

/-- A step reports a diagnostic exactly when the table of causes says so, with the information word it says: the
fetch range before the decoding, the decoding before the instruction's own check, memory before the grid, the lowest
offending address, the first offending pixel (R203 to R210, R212). The checks themselves are the spec's decisions
D3 to D9 (logs 3, 4, 6 to 10); it also rests on the stack's depth (D2, log 5), the bit order of a sprite (D12, log 13),
the coordinates sampled before VF is written (D11, log 12) and the words that are unknown (D19, log 18). -/
def Obligations.StepFaultsExactlyAsTheCausesSay : Prop :=
  ∀ (s : State) (d : Fault), step s = .fault d ↔ FaultCondition s d

/-- No instruction is refused: a step answers a next state or a diagnostic. -/
def Obligations.StepNeverRefuses : Prop :=
  ∀ s : State, (∃ t, step s = .next t) ∨ (∃ d, step s = .fault d)

/-- A step that raises a diagnostic leaves its entry state but for the two flags, which are cleared, and the next step
raises the same diagnostic (R201; the spec's decision D3; logs 3, 4). -/
def Obligations.DiagnosticLeavesTheStateAndRepeats : Prop :=
  ∀ (s : State) (d : Fault), step s = .fault d →
    (stepReport s).2 = some d ∧
    (stepReport s).1.displayFlag = false ∧ (stepReport s).1.soundFlag = false ∧
    KeepsAllBut (fun p => p = .displayFlag ∨ p = .soundFlag) s (stepReport s).1 ∧
    step (stepReport s).1 = .fault d

/-- The two output flags: a step does not depend on them, leaves sound_flag false, and leaves display_flag true
exactly when it ran `00E0` or `Dxyn` (R31, R32; for `00E0` the spec's decision D14, log 14). The first clause compares
two runs whose random byte `rnd` is the same, as it is in the model for equal `draws` (log 2: unsafe for such a
comparison on its own). -/
def Obligations.OutputFlagsAfterAStep : Prop :=
  (∀ (s : State) (b c : Bool), step { s with displayFlag := b, soundFlag := c } = step s) ∧
  (∀ (s t : State) (i : Instr), FetchesInstr s i → step s = .next t →
    t.soundFlag = false ∧ (t.displayFlag = true ↔ i = .cls ∨ ∃ x y n, i = .drw x y n))

/-! ### What only some instructions may write (10_state.md) -/

/-- A step changes dt only in `Fx15` and st only in `Fx18`: `step` does not count the timers down (R185;
90_conflicts.md C5, log 26). -/
def Obligations.StepMovesTimersOnlyByTheirLoads : Prop :=
  ∀ (s t : State) (i : Instr), FetchesInstr s i → step s = .next t →
    (t.dt ≠ s.dt → ∃ x, i = .ldDtVx x ∧ t.dt = readV s x) ∧
    (t.st ≠ s.st → ∃ x, i = .ldStVx x ∧ t.st = readV s x)

/-- No instruction writes the key state (R30), nor the parameter FONT; a random byte is drawn by `Cxkk` only (R7; FONT and the
count of draws are the model's own fields, logs 1, 2). -/
def Obligations.StepNeverWritesItsInputs : Prop :=
  ∀ (s t : State) (i : Instr), FetchesInstr s i → step s = .next t →
    t.keys = s.keys ∧ t.font = s.font ∧ (t.draws ≠ s.draws → ∃ x kk, i = .rnd x kk)

/-- sp is written only by `2nnn`, which adds 1, and `00EE`, which takes 1 away; a stack entry only by `2nnn`, which
writes entry sp; an entry read by `00EE` keeps its value (R24, R25). -/
def Obligations.StackMovesOnlyByCallAndReturn : Prop :=
  ∀ (s t : State) (i : Instr), FetchesInstr s i → step s = .next t →
    (t.sp ≠ s.sp → (∃ nnn, i = .call nnn) ∧ t.sp.val = s.sp.val + 1 ∨ i = .ret ∧ t.sp.val + 1 = s.sp.val) ∧
    (∀ k : Fin Config.stackDepth, t.stack[k.val] ≠ s.stack[k.val] →
      (∃ nnn, i = .call nnn) ∧ k.val = s.sp.val)

/-- Memory is written only by `Fx33`, at I, I+1, I+2, and by `Fx55`, at I to I+x−1; the stack, the framebuffer, the
keys and the registers are not in it (R28, R56, R62; that no address wraps is the spec's decision D6, log 7). -/
def Obligations.MemoryIsWrittenOnlyByItsStores : Prop :=
  ∀ (s t : State) (i : Instr) (a : Nat), FetchesInstr s i → step s = .next t → readMem t a ≠ readMem s a →
    s.i.toNat ≤ a ∧ a ≤ 0xFFF ∧
      ((∃ x, i = .ldB x ∧ a < s.i.toNat + 3) ∨ (∃ x, i = .stRegs x ∧ a < s.i.toNat + x.toNat))

/-- A pixel is changed only by `00E0` and `Dxyn` (R29), and by `Dxyn` only where its sprite covers it. `Covers` takes the
coordinates before VF is written, does not reduce them, and has bit 7 as column 0: the spec's decisions D11 (log 12,
unsafe for DFyn and DxFn), D8 (log 9) and D12 (log 13). -/
def Obligations.FramebufferChangesOnlyByDisplayInstructions : Prop :=
  ∀ (s t : State) (i : Instr) (k : Nat), FetchesInstr s i → step s = .next t → pixel t k ≠ pixel s k →
    k < 2048 ∧ (i = .cls ∧ pixel t k = false ∨ ∃ x y n, i = .drw x y n ∧ Covers s x y n k)

/-- I is written only by `Annn`, `Fx1E` and `Fx29`, and only `Fx1E` takes it above 0xFFF (R22, R162). -/
def Obligations.IndexIsWrittenOnlyByItsInstructions : Prop :=
  ∀ (s t : State) (i : Instr), FetchesInstr s i → step s = .next t →
    (t.i ≠ s.i → (∃ nnn, i = .ldI nnn) ∨ (∃ x, i = .addI x) ∨ (∃ x, i = .ldF x)) ∧
    (s.i.toNat ≤ 0xFFF → 0xFFF < t.i.toNat → ∃ x, i = .addI x)

/-- The instructions that write VF as a side effect are exactly `8xy4`, `8xy5`, `8xy6`, `8xy7`, `8xyE` and `Dxyn`;
any other writes it only as the register its `x` field names (R21). -/
def Obligations.VFIsWrittenOnlyAsFlagOrDestination : Prop :=
  ∀ (s t : State) (i : Instr), FetchesInstr s i → step s = .next t → readV t VF ≠ readV s VF →
    (∃ x y, i = .addReg x y ∨ i = .sub x y ∨ i = .shr x y ∨ i = .subn x y ∨ i = .shl x y) ∨
    (∃ x y n, i = .drw x y n) ∨
    (∃ kk, i = .ldImm VF kk ∨ i = .addImm VF kk ∨ i = .rnd VF kk) ∨
    (∃ y, i = .ldReg VF y ∨ i = .or VF y ∨ i = .and VF y ∨ i = .xor VF y) ∨
    i = .ldVxDt VF

/-- Every completed step leaves pc in one of the ways R23 lists: pc + 2; pc + 4, only for a skip; nnn, only for `1nnn`
and `2nnn`; nnn + V0, only for `Bnnn`; the popped entry + 2, only for `00EE`; unchanged, only for `Fx0A` with no key
pressed. All sums are modulo 65536 (the spec's derivation in R23; log 16). -/
def Obligations.StepLeavesPcInOneOfTheListedWays : Prop :=
  ∀ (s t : State) (i : Instr), FetchesInstr s i → step s = .next t →
    match i with
    | .seImm _ _ | .sneImm _ _ | .seReg _ _ | .sneReg _ _ | .skp _ | .sknp _ => t.pc = s.pc + 2 ∨ t.pc = s.pc + 4
    | .jp nnn | .call nnn => t.pc.toNat = nnn.toNat
    | .jpV0 nnn => t.pc.toNat = nnn.toNat + (readV s 0).toNat
    | .ret => ∃ k : Fin Config.stackDepth, k.val + 1 = s.sp.val ∧ t.pc = s.stack[k.val] + 2
    | .wkey _ => (t.pc = s.pc + 2 ∧ ∃ k : Fin Config.numKeys, s.keys[k.val] = true) ∨
        (t.pc = s.pc ∧ ∀ k : Fin Config.numKeys, s.keys[k.val] = false)
    | _ => t.pc = s.pc + 2

/-! ### Invariants and host operations -/

/-- Every step keeps memory in canonical form: addresses rising and at most 0xFFF, no cell that says what an unlisted
address reads as (R52, R53, R54; the form is the model's, log 21; that no store passes 0xFFF or wraps
is the spec's decision D6, log 7). -/
def Obligations.StepKeepsMemoryCanonical : Prop :=
  ∀ s t : State, Memory.wf s.font s.mem = true → step s = .next t →
    Memory.wf t.font t.mem = true

/-- Reset memory is canonical (log 21). -/
def Obligations.ResetMemoryIsCanonical : Prop :=
  Memory.wf State.reset.font State.reset.mem = true ∧
  ∀ s : State, Memory.wf (resetOp s).font (resetOp s).mem = true

/-- Under every interleaving of the host's operations, failing steps and refused loads among them, memory stays
canonical and the parameter FONT stays what it was (R6, R223; the interleavings are the spec's decision D21, log 19; the
form and FONT are the model's, logs 1, 21; D6, log 7). -/
def Obligations.EveryScheduleKeepsMemoryCanonical : Prop :=
  ∀ (ops : List Operation) (s : State), Memory.wf s.font s.mem = true →
    Memory.wf (performAll ops s).font (performAll ops s).mem = true ∧ (performAll ops s).font = s.font

/-- `reset()` from any state, and the state after reset: every item of R39's table. Memory above the font reads 0 and
below it reads FONT, whatever FONT is (R33). The two flags' values are the spec's decision D15 (log 15); nothing is
said of the model's own fields (logs 1, 2, 29). -/
def Obligations.ResetGivesEveryItemItsValue : Prop :=
  ∀ r : State, r = State.reset ∨ (∃ s, r = resetOp s) →
    (∀ x, readV r x = 0) ∧ r.i = 0 ∧ r.pc = 0x200 ∧ r.sp.val = 0 ∧
    (∀ k : Fin Config.stackDepth, r.stack[k.val] = 0) ∧ r.dt = 0 ∧ r.st = 0 ∧
    (∀ (g : Fin 16) (q : Fin 5), readMem r (5 * g.val + q.val) = (r.font[g.val])[q.val]) ∧
    (∀ a, 0x050 ≤ a → readMem r a = 0) ∧
    (∀ k, pixel r k = false) ∧ (∀ k : Fin Config.numKeys, r.keys[k.val] = false) ∧
    r.displayFlag = false ∧ r.soundFlag = false

/-- `tick_timers()`: each timer above 0 goes down by 1 and one at 0 stays, sound_flag is set when st was above 0
before the tick and is never cleared, and nothing else changes (R184; 90_conflicts.md C6, log 26). -/
def Obligations.TickTimersCountsDownAndSounds : Prop :=
  ∀ s : State,
    (tickTimers s).dt.toNat = s.dt.toNat - 1 ∧ (tickTimers s).st.toNat = s.st.toNat - 1 ∧
    (tickTimers s).soundFlag = (s.soundFlag || decide (0 < s.st.toNat)) ∧
    KeepsAllBut (fun p => p = .dt ∨ p = .st ∨ p = .soundFlag) s (tickTimers s)

/-- After `k` ticks with no other operation between them, dt = max(dt − k, 0) and st = max(st − k, 0), and sound_flag
is set if one of them found st above 0 (R186; 90_conflicts.md C6, log 26). -/
def Obligations.TicksCountDownToZero : Prop :=
  ∀ (k : Nat) (s : State),
    (ticks k s).dt.toNat = s.dt.toNat - k ∧ (ticks k s).st.toNat = s.st.toNat - k ∧
    (ticks k s).soundFlag = (s.soundFlag || (decide (0 < k) && decide (0 < s.st.toNat))) ∧
    KeepsAllBut (fun p => p = .dt ∨ p = .st ∨ p = .soundFlag) s (ticks k s)

/-- `set_key(k, b)` writes key `k` and changes nothing else (R37). -/
def Obligations.SetKeyWritesOneKey : Prop :=
  ∀ (k : Fin Config.numKeys) (b : Bool) (s : State),
    (setKey k b s).keys[k.val] = b ∧ KeepsAllBut (fun p => p = .key k) s (setKey k b s)

/-- `load_program(bytes)`: more than 3584 bytes are refused with nothing changed; otherwise byte `j` goes to
0x200 + `j`, and every other byte of memory and every other item of state keeps its value (R243). -/
def Obligations.LoadProgramCopiesOrRefuses : Prop :=
  ∀ (bytes : List Byte) (s : State),
    (3584 < bytes.length → loadProgram bytes s = (s, .capacityExceeded)) ∧
    (bytes.length ≤ 3584 →
      (loadProgram bytes s).2 = .ok ∧
      (∀ j, (h : j < bytes.length) → readMem (loadProgram bytes s).1 (0x200 + j) = bytes[j]) ∧
      KeepsAllBut (fun p => ∃ j, j < bytes.length ∧ p = .byte (0x200 + j)) s (loadProgram bytes s).1)

/-! ### Display (40_display.md) -/

/-- `00E0`: every pixel becomes 0 and display_flag is set whatever the framebuffer held (R100; the flag is the spec's
decision D14, log 14). -/
def Obligations.ClsClearsTheFramebuffer : Prop :=
  Encoded 0xFFFF 0x00E0 (fun _ => .cls) ∧
  ∀ s : State, ∃ t, exec .cls s = .next t ∧
    (∀ k, pixel t k = false) ∧ t.displayFlag = true ∧ t.pc = s.pc + 2 ∧
    KeepsAllBut (fun p => p = .pc ∨ p = .displayFlag ∨ ∃ k, p = .pixel k) s t

/-- `Dxyn` completes when every byte it reads exists and every 1 bit of the sprite is inside the grid: each covered
pixel is inverted, VF is 1 if a covered pixel was 1 and 0 otherwise, display_flag is set, and nothing else changes,
VF as an operand included (R101, R102, R104; the spec's decisions D6, D8, D11, D12, D14; logs 7, 9, 12, 13, 14). -/
def Obligations.DrwXorsTheSpriteAndReportsCollision : Prop :=
  Encoded 0xF000 0xD000 (fun w => .drw (w.extractLsb' 8 4) (w.extractLsb' 4 4) (w.extractLsb' 0 4)) ∧
  ∀ (x y n : Nibble) (s : State), (∀ r, r < n.toNat → s.i.toNat + r ≤ 0xFFF) →
    (∀ r c, SpriteBit s n r c → ¬ OutsideGrid s x y r c) →
    ∃ t, exec (.drw x y n) s = .next t ∧
      (∀ k, Covers s x y n k → pixel t k = !pixel s k) ∧
      ((∃ k, Covers s x y n k ∧ pixel s k = true) → readV t VF = 1) ∧
      ((∀ k, Covers s x y n k → pixel s k = false) → readV t VF = 0) ∧
      t.displayFlag = true ∧ t.pc = s.pc + 2 ∧
      KeepsAllBut (fun p => p = .pc ∨ p = .reg VF ∨ p = .displayFlag ∨ ∃ k, p = .pixel k ∧ Covers s x y n k) s t

/-- Drawing a sprite twice at the same place restores the framebuffer exactly, and on the second draw VF is 1 exactly
when the sprite has a 1 bit over a pixel that was 0 before the first (R105; x and y are not VF, which the first draw
writes). `Covers` has bit 7 as column 0 and no coordinate reduced: the spec's decisions D12 (log 13) and D8 (log 9). -/
def Obligations.DrawingTwiceRestoresTheFramebuffer : Prop :=
  ∀ (x y n : Nibble) (s t u : State), x ≠ VF → y ≠ VF →
    exec (.drw x y n) s = .next t → exec (.drw x y n) t = .next u →
    u.fb = s.fb ∧ (readV u VF = 0 ∨ readV u VF = 1) ∧
    (readV u VF = 1 ↔ ∃ k, Covers s x y n k ∧ pixel s k = false)

/-! ### Control flow (41_control_flow.md) -/

/-- `1nnn`: pc = nnn and nothing else changes; a jump to itself is a fixed point of step but for the two flags
(R110). -/
def Obligations.JpSetsPc : Prop :=
  Encoded 0xF000 0x1000 (fun w => .jp (w.extractLsb' 0 12)) ∧
  (∀ (nnn : Addr12) (s : State), ∃ t, exec (.jp nnn) s = .next t ∧
    t.pc.toNat = nnn.toNat ∧ KeepsAllBut (fun p => p = .pc) s t) ∧
  (∀ (nnn : Addr12) (s : State), FetchesInstr s (.jp nnn) → nnn.toNat = s.pc.toNat →
    step s = .next { s with displayFlag := false, soundFlag := false })

/-- A state at the end of a run steps safely for ever, and stays at the end of the run (R249; the definition of the end
of a run is the model's, as the spec's decision D20 has it, log 23). -/
def Obligations.EndOfRunIsSafeForEver : Prop :=
  ∀ s : State, EndOfRun s →
    (∀ n, SafeRun n s) ∧ ∀ n t, core.run n s = .next t → EndOfRun t ∧ t.pc = s.pc

/-- `2nnn` with room on the stack: entry sp gets the address of the call itself, sp goes up by 1, pc = nnn; with the
stack full it is a diagnostic (R111; the check is the spec's decision D7, log 8, and the depth of 16
is D2, log 5). -/
def Obligations.CallPushesItsOwnAddress : Prop :=
  Encoded 0xF000 0x2000 (fun w => .call (w.extractLsb' 0 12)) ∧
  ∀ (nnn : Addr12) (s : State),
    (∀ k : Fin Config.stackDepth, k.val = s.sp.val → ∃ t, exec (.call nnn) s = .next t ∧
      t.stack[k.val] = s.pc ∧ t.sp.val = s.sp.val + 1 ∧ t.pc.toNat = nnn.toNat ∧
      KeepsAllBut (fun p => p = .pc ∨ p = .sp ∨ p = .stackEntry k) s t) ∧
    (s.sp.val = 16 → exec (.call nnn) s = .fault (.stackOverflow 16))

/-- `00EE` with a stack that is not empty: sp goes down by 1 and pc is the entry there + 2, the entry keeping its
value; with the stack empty it is a diagnostic (R112; the check is the spec's decision D7, log 8). -/
def Obligations.RetPopsTheReturnAddress : Prop :=
  Encoded 0xFFFF 0x00EE (fun _ => .ret) ∧
  ∀ s : State,
    (∀ k : Fin Config.stackDepth, k.val + 1 = s.sp.val → ∃ t, exec .ret s = .next t ∧
      t.sp.val = k.val ∧ t.pc.toNat = (s.stack[k.val].toNat + 2) % 65536 ∧
      KeepsAllBut (fun p => p = .pc ∨ p = .sp) s t) ∧
    (s.sp.val = 0 → exec .ret s = .fault (.stackUnderflow 0))

/-- A call and then the callee's return, with any instructions between them that leave the stack alone, resume at the
word after the call with sp as before it (R111, R112). -/
def Obligations.CallThenReturnResumesAfterTheCall : Prop :=
  ∀ (nnn : Addr12) (s t u : State), exec (.call nnn) s = .next t → u.sp = t.sp → u.stack = t.stack →
    ∃ r, exec .ret u = .next r ∧ r.pc = s.pc + 2 ∧ r.sp = s.sp

/-- `Bnnn`: pc = nnn + V0, not reduced to 12 bits (R113; log 16). -/
def Obligations.JpV0AddsV0 : Prop :=
  Encoded 0xF000 0xB000 (fun w => .jpV0 (w.extractLsb' 0 12)) ∧
  ∀ (nnn : Addr12) (s : State), ∃ t, exec (.jpV0 nnn) s = .next t ∧
    t.pc.toNat = nnn.toNat + (readV s 0).toNat ∧ KeepsAllBut (fun p => p = .pc) s t

/-! ### Skips (42_skips.md) -/

/-- `3xkk` and `4xkk`: pc + 4 when the condition holds, else pc + 2, and nothing else changes (R120, R121). -/
def Obligations.SkipsOnImmediate : Prop :=
  Encoded 0xF000 0x3000 (fun w => .seImm (w.extractLsb' 8 4) (w.extractLsb' 0 8)) ∧
  Encoded 0xF000 0x4000 (fun w => .sneImm (w.extractLsb' 8 4) (w.extractLsb' 0 8)) ∧
  ∀ (x : Nibble) (kk : Byte) (s : State),
    (∃ t, exec (.seImm x kk) s = .next t ∧ (readV s x = kk → t.pc = s.pc + 4) ∧
      (readV s x ≠ kk → t.pc = s.pc + 2) ∧ KeepsAllBut (fun p => p = .pc) s t) ∧
    (∃ t, exec (.sneImm x kk) s = .next t ∧ (readV s x ≠ kk → t.pc = s.pc + 4) ∧
      (readV s x = kk → t.pc = s.pc + 2) ∧ KeepsAllBut (fun p => p = .pc) s t)

/-- `5xy0` and `9xy0`: pc + 4 when the condition holds, else pc + 2, and nothing else changes; with a low nibble that
is not 0 the word is unknown (R122, R123; the spec's decision D19, log 18). -/
def Obligations.SkipsOnRegister : Prop :=
  Encoded 0xF00F 0x5000 (fun w => .seReg (w.extractLsb' 8 4) (w.extractLsb' 4 4)) ∧
  Encoded 0xF00F 0x9000 (fun w => .sneReg (w.extractLsb' 8 4) (w.extractLsb' 4 4)) ∧
  (∀ w : Word, w.extractLsb' 12 4 = 0x5 ∨ w.extractLsb' 12 4 = 0x9 → w.extractLsb' 0 4 ≠ 0 →
    decodeWord w = .error (.unknownWord w)) ∧
  ∀ (x y : Nibble) (s : State),
    (∃ t, exec (.seReg x y) s = .next t ∧ (readV s x = readV s y → t.pc = s.pc + 4) ∧
      (readV s x ≠ readV s y → t.pc = s.pc + 2) ∧ KeepsAllBut (fun p => p = .pc) s t) ∧
    (∃ t, exec (.sneReg x y) s = .next t ∧ (readV s x ≠ readV s y → t.pc = s.pc + 4) ∧
      (readV s x = readV s y → t.pc = s.pc + 2) ∧ KeepsAllBut (fun p => p = .pc) s t)

/-! ### Immediate loads and adds (43_immediate.md) -/

/-- `6xkk`: Vx = kk, for every x, VF included (R130). -/
def Obligations.LdImmLoadsTheByte : Prop :=
  Encoded 0xF000 0x6000 (fun w => .ldImm (w.extractLsb' 8 4) (w.extractLsb' 0 8)) ∧
  ∀ (x : Nibble) (kk : Byte) (s : State), ∃ t, exec (.ldImm x kk) s = .next t ∧
    readV t x = kk ∧ t.pc = s.pc + 2 ∧ KeepsAllBut (fun p => p = .pc ∨ p = .reg x) s t

/-- `7xkk`: Vx = (Vx + kk) mod 256, no flag; `6xkk` and then `7x01` yield (kk + 1) mod 256 (R131). -/
def Obligations.AddImmWrapsWithoutFlag : Prop :=
  Encoded 0xF000 0x7000 (fun w => .addImm (w.extractLsb' 8 4) (w.extractLsb' 0 8)) ∧
  (∀ (x : Nibble) (kk : Byte) (s : State), ∃ t, exec (.addImm x kk) s = .next t ∧
    (readV t x).toNat = ((readV s x).toNat + kk.toNat) % 256 ∧ t.pc = s.pc + 2 ∧
    KeepsAllBut (fun p => p = .pc ∨ p = .reg x) s t) ∧
  (∀ (x : Nibble) (kk : Byte) (s : State), ∃ t u, exec (.ldImm x kk) s = .next t ∧
    exec (.addImm x 1) t = .next u ∧ (readV u x).toNat = (kk.toNat + 1) % 256)

/-! ### Register-register arithmetic and logic (44_alu.md) -/

/-- `8xy0`: Vx = Vy (R140). -/
def Obligations.LdRegCopies : Prop :=
  Encoded 0xF00F 0x8000 (fun w => .ldReg (w.extractLsb' 8 4) (w.extractLsb' 4 4)) ∧
  ∀ (x y : Nibble) (s : State), ∃ t, exec (.ldReg x y) s = .next t ∧
    readV t x = readV s y ∧ readV t y = readV s y ∧ t.pc = s.pc + 2 ∧
    KeepsAllBut (fun p => p = .pc ∨ p = .reg x) s t

/-- `8xy1`, `8xy2`, `8xy3`: Vx = Vx OR, AND, XOR Vy, bit by bit, VF unchanged unless it is Vx (R141, R142, R143). -/
def Obligations.LogicIsBitwiseWithoutFlag : Prop :=
  Encoded 0xF00F 0x8001 (fun w => .or (w.extractLsb' 8 4) (w.extractLsb' 4 4)) ∧
  Encoded 0xF00F 0x8002 (fun w => .and (w.extractLsb' 8 4) (w.extractLsb' 4 4)) ∧
  Encoded 0xF00F 0x8003 (fun w => .xor (w.extractLsb' 8 4) (w.extractLsb' 4 4)) ∧
  ∀ (x y : Nibble) (s : State),
    (∃ t, exec (.or x y) s = .next t ∧
      (∀ b, b < 8 → (readV t x).getLsbD b = ((readV s x).getLsbD b || (readV s y).getLsbD b)) ∧
      t.pc = s.pc + 2 ∧ KeepsAllBut (fun p => p = .pc ∨ p = .reg x) s t) ∧
    (∃ t, exec (.and x y) s = .next t ∧
      (∀ b, b < 8 → (readV t x).getLsbD b = ((readV s x).getLsbD b && (readV s y).getLsbD b)) ∧
      t.pc = s.pc + 2 ∧ KeepsAllBut (fun p => p = .pc ∨ p = .reg x) s t) ∧
    (∃ t, exec (.xor x y) s = .next t ∧
      (∀ b, b < 8 → (readV t x).getLsbD b = ((readV s x).getLsbD b != (readV s y).getLsbD b)) ∧
      t.pc = s.pc + 2 ∧ KeepsAllBut (fun p => p = .pc ∨ p = .reg x) s t)

/-- `8xy4` in all four cases of R144's table: `c` is the carry of the old values; the result is computed after VF has
been written (R150, the spec's decision D10; log 11). -/
def Obligations.AddRegInEveryCase : Prop :=
  Encoded 0xF00F 0x8004 (fun w => .addReg (w.extractLsb' 8 4) (w.extractLsb' 4 4)) ∧
  ∀ (x y : Nibble) (s : State) (c : Nat),
    c = (if 255 < (readV s x).toNat + (readV s y).toNat then 1 else 0) →
    ∃ t, exec (.addReg x y) s = .next t ∧
      (x ≠ VF → y ≠ VF → (readV t x).toNat = ((readV s x).toNat + (readV s y).toNat) % 256 ∧
        (readV t VF).toNat = c) ∧
      (x ≠ VF → y = VF → (readV t x).toNat = ((readV s x).toNat + c) % 256 ∧ (readV t VF).toNat = c) ∧
      (x = VF → y ≠ VF → (readV t VF).toNat = (c + (readV s y).toNat) % 256) ∧
      (x = VF → y = VF → (readV t VF).toNat = 2 * c) ∧
      t.pc = s.pc + 2 ∧ KeepsAllBut (fun p => p = .pc ∨ p = .reg x ∨ p = .reg VF) s t

/-- `8xy5` in every case of R145's table: `c` is 1 exactly when minuend ≥ subtrahend (R150, the spec's decision D10;
log 11). -/
def Obligations.SubInEveryCase : Prop :=
  Encoded 0xF00F 0x8005 (fun w => .sub (w.extractLsb' 8 4) (w.extractLsb' 4 4)) ∧
  ∀ (x y : Nibble) (s : State) (c : Nat), c = (if (readV s y).toNat ≤ (readV s x).toNat then 1 else 0) →
    ∃ t, exec (.sub x y) s = .next t ∧
      (x ≠ VF → y ≠ VF → (readV t x).toNat = ((readV s x).toNat + 256 - (readV s y).toNat) % 256 ∧
        (readV t VF).toNat = c) ∧
      (x ≠ VF → y = VF → (readV t x).toNat = ((readV s x).toNat + 256 - c) % 256 ∧ (readV t VF).toNat = c) ∧
      (x = VF → y ≠ VF → (readV t VF).toNat = (c + 256 - (readV s y).toNat) % 256) ∧
      (x = VF → y = VF → (readV t VF).toNat = 0) ∧
      t.pc = s.pc + 2 ∧ KeepsAllBut (fun p => p = .pc ∨ p = .reg x ∨ p = .reg VF) s t

/-- `8xy6`: bit 0 goes to VF and 0 is shifted in; Vy is not used; with x = F the result is 0 (R146; R150, the spec's
decision D10; log 11). -/
def Obligations.ShrShiftsVxRight : Prop :=
  Encoded 0xF00F 0x8006 (fun w => .shr (w.extractLsb' 8 4) (w.extractLsb' 4 4)) ∧
  ∀ (x y : Nibble) (s : State), ∃ t, exec (.shr x y) s = .next t ∧
    (x ≠ VF → (readV t x).toNat = (readV s x).toNat / 2 ∧ (readV t VF).toNat = (readV s x).toNat % 2) ∧
    (x = VF → (readV t VF).toNat = 0) ∧
    t.pc = s.pc + 2 ∧ KeepsAllBut (fun p => p = .pc ∨ p = .reg x ∨ p = .reg VF) s t

/-- `8xy7` in every case of R147's table (R150, the spec's decision D10; log 11). -/
def Obligations.SubnInEveryCase : Prop :=
  Encoded 0xF00F 0x8007 (fun w => .subn (w.extractLsb' 8 4) (w.extractLsb' 4 4)) ∧
  ∀ (x y : Nibble) (s : State) (c : Nat), c = (if (readV s x).toNat ≤ (readV s y).toNat then 1 else 0) →
    ∃ t, exec (.subn x y) s = .next t ∧
      (x ≠ VF → y ≠ VF → (readV t x).toNat = ((readV s y).toNat + 256 - (readV s x).toNat) % 256 ∧
        (readV t VF).toNat = c) ∧
      (x ≠ VF → y = VF → (readV t x).toNat = (c + 256 - (readV s x).toNat) % 256 ∧ (readV t VF).toNat = c) ∧
      (x = VF → y ≠ VF → (readV t VF).toNat = ((readV s y).toNat + 256 - c) % 256) ∧
      (x = VF → y = VF → (readV t VF).toNat = 0) ∧
      t.pc = s.pc + 2 ∧ KeepsAllBut (fun p => p = .pc ∨ p = .reg x ∨ p = .reg VF) s t

/-- `8xyE`: bit 7 goes to VF and 0 is shifted in; Vy is not used; with x = F the result is twice bit 7 (R148; R150, the
spec's decision D10; log 11). -/
def Obligations.ShlShiftsVxLeft : Prop :=
  Encoded 0xF00F 0x800E (fun w => .shl (w.extractLsb' 8 4) (w.extractLsb' 4 4)) ∧
  ∀ (x y : Nibble) (s : State), ∃ t, exec (.shl x y) s = .next t ∧
    (x ≠ VF → (readV t x).toNat = 2 * (readV s x).toNat % 256 ∧ (readV t VF).toNat = (readV s x).toNat / 128) ∧
    (x = VF → (readV t VF).toNat = 2 * ((readV s VF).toNat / 128)) ∧
    t.pc = s.pc + 2 ∧ KeepsAllBut (fun p => p = .pc ∨ p = .reg x ∨ p = .reg VF) s t

/-! ### Index register and random (45_index_random.md) -/

/-- `Annn`: I = nnn (R160). -/
def Obligations.LdILoadsTheAddress : Prop :=
  Encoded 0xF000 0xA000 (fun w => .ldI (w.extractLsb' 0 12)) ∧
  ∀ (nnn : Addr12) (s : State), ∃ t, exec (.ldI nnn) s = .next t ∧
    t.i.toNat = nnn.toNat ∧ t.pc = s.pc + 2 ∧ KeepsAllBut (fun p => p = .pc ∨ p = .index) s t

/-- `Cxkk`: Vx = rnd AND kk for the byte `rnd` of this draw, which the next draw does not reuse; so (Vx AND NOT kk) = 0
and kk = 0 gives 0, whatever `rnd` is (R161; `rnd` is a free value, the spec's decision D18, log 2). -/
def Obligations.RndMasksTheFreeByte : Prop :=
  Encoded 0xF000 0xC000 (fun w => .rnd (w.extractLsb' 8 4) (w.extractLsb' 0 8)) ∧
  ∀ (x : Nibble) (kk : Byte) (s : State), ∃ t, exec (.rnd x kk) s = .next t ∧
    (∀ b, b < 8 → (readV t x).getLsbD b = ((Config.rndByte s.draws).getLsbD b && kk.getLsbD b)) ∧
    readV t x &&& ~~~kk = 0 ∧ t.draws = s.draws + 1 ∧ t.pc = s.pc + 2 ∧
    KeepsAllBut (fun p => p = .pc ∨ p = .reg x ∨ p = .draws) s t

/-- `Fx1E`: I = (I + Vx) mod 65536, with no flag, VF unchanged; it is the only way I can exceed 0xFFF (R162). -/
def Obligations.AddIWrapsWithoutFlag : Prop :=
  Encoded 0xF0FF 0xF01E (fun w => .addI (w.extractLsb' 8 4)) ∧
  (∀ (x : Nibble) (s : State), ∃ t, exec (.addI x) s = .next t ∧
    t.i.toNat = (s.i.toNat + (readV s x).toNat) % 65536 ∧ t.pc = s.pc + 2 ∧
    KeepsAllBut (fun p => p = .pc ∨ p = .index) s t) ∧
  (∀ (i : Instr) (s t : State), exec i s = .next t → s.i.toNat ≤ 0xFFF → 0xFFF < t.i.toNat → ∃ x, i = .addI x)

/-- `Fx29`: I = 5·Vx, the whole byte multiplied; for Vx = d ≤ 15 that is the address of glyph d (R163). -/
def Obligations.LdFPointsAtTheGlyph : Prop :=
  Encoded 0xF0FF 0xF029 (fun w => .ldF (w.extractLsb' 8 4)) ∧
  ∀ (x : Nibble) (s : State), ∃ t, exec (.ldF x) s = .next t ∧
    t.i.toNat = 5 * (readV s x).toNat ∧ t.pc = s.pc + 2 ∧
    (∀ (g : Fin 16) (q : Fin 5), (readV s x).toNat = g.val →
      initialByte s.font (t.i.toNat + q.val) = (s.font[g.val])[q.val]) ∧
    KeepsAllBut (fun p => p = .pc ∨ p = .index) s t

/-! ### Keypad (46_keypad.md) -/

/-- `Ex9E` and `ExA1` with Vx at most 15: pc + 4 when key Vx is, or is not, pressed, else pc + 2; with Vx above 15 a
diagnostic (R170, R171; the check is the spec's decision D9, log 10). -/
def Obligations.SkipsOnKey : Prop :=
  Encoded 0xF0FF 0xE09E (fun w => .skp (w.extractLsb' 8 4)) ∧
  Encoded 0xF0FF 0xE0A1 (fun w => .sknp (w.extractLsb' 8 4)) ∧
  ∀ (x : Nibble) (s : State),
    (∀ k : Fin Config.numKeys, k.val = (readV s x).toNat →
      (∃ t, exec (.skp x) s = .next t ∧ (s.keys[k.val] = true → t.pc = s.pc + 4) ∧
        (s.keys[k.val] = false → t.pc = s.pc + 2) ∧ KeepsAllBut (fun p => p = .pc) s t) ∧
      (∃ t, exec (.sknp x) s = .next t ∧ (s.keys[k.val] = false → t.pc = s.pc + 4) ∧
        (s.keys[k.val] = true → t.pc = s.pc + 2) ∧ KeepsAllBut (fun p => p = .pc) s t)) ∧
    (15 < (readV s x).toNat → exec (.skp x) s = .fault (.keyIndexOutOfRange (readV s x)) ∧
      exec (.sknp x) s = .fault (.keyIndexOutOfRange (readV s x)))

/-- `Fx0A`: with some key pressed pc goes on by 2, with none pc stays; no register is written, and it is no fault
(R172). -/
def Obligations.WkeyWaitsForAKey : Prop :=
  Encoded 0xF0FF 0xF00A (fun w => .wkey (w.extractLsb' 8 4)) ∧
  ∀ (x : Nibble) (s : State), ∃ t, exec (.wkey x) s = .next t ∧
    ((∃ k : Fin Config.numKeys, s.keys[k.val] = true) → t.pc = s.pc + 2) ∧
    ((∀ k : Fin Config.numKeys, s.keys[k.val] = false) → t = s) ∧
    KeepsAllBut (fun p => p = .pc) s t

/-! ### Timers (47_timers.md) -/

/-- `Fx07`, `Fx15`, `Fx18`: Vx = dt, dt = Vx, st = Vx, with no count-down and sound_flag not set (R180, R181, R182). -/
def Obligations.TimerLoadsCopy : Prop :=
  Encoded 0xF0FF 0xF007 (fun w => .ldVxDt (w.extractLsb' 8 4)) ∧
  Encoded 0xF0FF 0xF015 (fun w => .ldDtVx (w.extractLsb' 8 4)) ∧
  Encoded 0xF0FF 0xF018 (fun w => .ldStVx (w.extractLsb' 8 4)) ∧
  ∀ (x : Nibble) (s : State),
    (∃ t, exec (.ldVxDt x) s = .next t ∧ readV t x = s.dt ∧ t.pc = s.pc + 2 ∧
      KeepsAllBut (fun p => p = .pc ∨ p = .reg x) s t) ∧
    (∃ t, exec (.ldDtVx x) s = .next t ∧ t.dt = readV s x ∧ t.pc = s.pc + 2 ∧
      KeepsAllBut (fun p => p = .pc ∨ p = .dt) s t) ∧
    (∃ t, exec (.ldStVx x) s = .next t ∧ t.st = readV s x ∧ t.pc = s.pc + 2 ∧
      KeepsAllBut (fun p => p = .pc ∨ p = .st) s t)

/-- No instruction reads st: two steps from states that differ in st alone end alike, and their next states differ in
st alone, or not at all after `Fx18` (R27). The two
steps compared have the same random byte `rnd`, as they have in the model for equal `draws` (log 2: unsafe for such a
comparison on its own). -/
def Obligations.NoInstructionReadsTheSoundTimer : Prop :=
  ∀ (s : State) (v : Byte),
    ((∃ x, FetchesInstr s (.ldStVx x)) → step { s with st := v } = step s) ∧
    ((∀ x, ¬ FetchesInstr s (.ldStVx x)) →
      step { s with st := v } = mapNext (fun t => { t with st := v }) (step s))

/-! ### Memory instructions (48_memory_ops.md) -/

/-- `Fx33`: with I + 2 ≤ 0xFFF, hundreds, tens and units of Vx go to I, I+1, I+2 and no other byte changes; otherwise
the lowest address above 0xFFF is reported (R190; the check is the spec's decision D6, log 7; that a store below 0x200
lands is D17, log 17; the digits are 90_conflicts.md C8, log 28). -/
def Obligations.LdBStoresTheDecimalDigits : Prop :=
  Encoded 0xF0FF 0xF033 (fun w => .ldB (w.extractLsb' 8 4)) ∧
  ∀ (x : Nibble) (s : State),
    (s.i.toNat + 2 ≤ 0xFFF → ∃ t, exec (.ldB x) s = .next t ∧
      (readMem t s.i.toNat).toNat = (readV s x).toNat / 100 ∧
      (readMem t (s.i.toNat + 1)).toNat = (readV s x).toNat / 10 % 10 ∧
      (readMem t (s.i.toNat + 2)).toNat = (readV s x).toNat % 10 ∧
      (∀ a, a < s.i.toNat ∨ s.i.toNat + 2 < a → readMem t a = readMem s a) ∧
      t.pc = s.pc + 2 ∧ KeepsAllBut (fun p => p = .pc ∨ ∃ a, p = .byte a) s t) ∧
    (0xFFF < s.i.toNat + 2 →
      ∃ a, LowestAbove a s.i.toNat 3 ∧ exec (.ldB x) s = .fault (.memoryOutOfRange a))

/-- `Fx55`: when the x bytes from I exist, V0 to V(x−1) go to I to I+x−1 and no other byte changes; otherwise the
lowest address above 0xFFF is reported. With x = 0 it completes whatever I is (R191; the check is the spec's decision
D6, log 7; that a store below 0x200 lands is D17, log 17). -/
def Obligations.StRegsStoresXRegisters : Prop :=
  Encoded 0xF0FF 0xF055 (fun w => .stRegs (w.extractLsb' 8 4)) ∧
  ∀ (x : Nibble) (s : State),
    (x = 0 ∨ s.i.toNat + x.toNat ≤ 0x1000 → ∃ t, exec (.stRegs x) s = .next t ∧
      (∀ k : Nibble, k.toNat < x.toNat → readMem t (s.i.toNat + k.toNat) = readV s k) ∧
      (∀ a, a < s.i.toNat ∨ s.i.toNat + x.toNat ≤ a → readMem t a = readMem s a) ∧
      t.pc = s.pc + 2 ∧ KeepsAllBut (fun p => p = .pc ∨ ∃ a, p = .byte a) s t) ∧
    (x ≠ 0 → 0x1000 < s.i.toNat + x.toNat →
      ∃ a, LowestAbove a s.i.toNat x.toNat ∧ exec (.stRegs x) s = .fault (.memoryOutOfRange a))

/-- `Fx65`: when the x bytes from I exist, they go to V0 to V(x−1) and no other register changes; otherwise the lowest
address above 0xFFF is reported. With x = 0 it completes whatever I is (R192; the check is the spec's decision D6,
log 7). -/
def Obligations.LdRegsLoadsXRegisters : Prop :=
  Encoded 0xF0FF 0xF065 (fun w => .ldRegs (w.extractLsb' 8 4)) ∧
  ∀ (x : Nibble) (s : State),
    (x = 0 ∨ s.i.toNat + x.toNat ≤ 0x1000 → ∃ t, exec (.ldRegs x) s = .next t ∧
      (∀ k : Nibble, k.toNat < x.toNat → readV t k = readMem s (s.i.toNat + k.toNat)) ∧
      t.pc = s.pc + 2 ∧ KeepsAllBut (fun p => p = .pc ∨ ∃ k, p = .reg k ∧ k.toNat < x.toNat) s t) ∧
    (x ≠ 0 → 0x1000 < s.i.toNat + x.toNat →
      ∃ a, LowestAbove a s.i.toNat x.toNat ∧ exec (.ldRegs x) s = .fault (.memoryOutOfRange a))

/-- `Fx55` and then `Fx65` with the same x and I round-trip V0 to V(x−1) exactly, whatever the registers held in
between, and touch no other register (R191, R192; below 0x200 it rests on the spec's decision D17, log 17; D6, log 7). -/
def Obligations.StoreThenLoadRoundTrips : Prop :=
  ∀ (x : Nibble) (s t u : State), exec (.stRegs x) s = .next t → u.i = t.i → u.mem = t.mem → u.font = t.font →
    ∃ r, exec (.ldRegs x) u = .next r ∧
      (∀ k : Nibble, k.toNat < x.toNat → readV r k = readV s k) ∧
      (∀ k : Nibble, x.toNat ≤ k.toNat → readV r k = readV u k)

/-- A store is seen by the very next fetch, V0 as the high byte: when `Fx55` with x ≥ 2 stores over the two bytes that
pc reaches, the next step runs the instruction that V0 and V1 make (R57, R60). -/
def Obligations.StoreIsSeenByTheNextFetch : Prop :=
  ∀ (x : Nibble) (s t : State) (i : Instr), FetchesInstr s (.stRegs x) → 2 ≤ x.toNat → step s = .next t →
    s.i = s.pc + 2 → t.pc.toNat ≤ 0xFFE → decodeWord (readV s 0 ++ readV s 1) = .ok i →
    step t = exec i { t with displayFlag := false, soundFlag := false }
end

