-- ==== Sys2Proof/Laws/Decode.lean ====
section
/-! SUPPORT. The fields of a word built by a format, the word built from its fields, and the rows of the opcode map
in terms of the fields (spec/30_encoding.md R72, R73, R75). -/

namespace Sys2Proof

/-! ### Bits -/

theorem getLsbD_wordNNN (op : Nibble) (nnn : Addr12) (k : Nat) :
    (wordNNN op nnn).getLsbD k = if k < 12 then nnn.getLsbD k else op.getLsbD (k - 12) := by
  have h := BitVec.getLsbD_append (x := op) (y := nnn) (i := k)
  simpa [wordNNN, Bool.cond_eq_ite] using h

theorem getLsbD_nibbles (a b : Nibble) (k : Nat) :
    (a ++ b : Byte).getLsbD k = if k < 4 then b.getLsbD k else a.getLsbD (k - 4) := by
  have h := BitVec.getLsbD_append (x := a) (y := b) (i := k)
  simpa [Bool.cond_eq_ite] using h

theorem getLsbD_wordOfBytes (a b : Byte) (k : Nat) :
    (wordOfBytes a b).getLsbD k = if k < 8 then b.getLsbD k else a.getLsbD (k - 8) := by
  have h := BitVec.getLsbD_append (x := a) (y := b) (i := k)
  simpa [wordOfBytes, Bool.cond_eq_ite] using h

theorem wordXKK_eq (op x : Nibble) (kk : Byte) : wordXKK op x kk = wordOfBytes (op ++ x) kk := rfl

theorem wordXYN_eq (op x y n : Nibble) : wordXYN op x y n = wordOfBytes (op ++ x) (y ++ n) := rfl

theorem getLsbD_field {m : Nat} (w : Word) (a k : Nat) (hk : k < m) :
    (w.extractLsb' a m).getLsbD k = w.getLsbD (a + k) := by simp [hk]

/-! ### Fields of a built word -/

@[simp] theorem fieldOp_wordNNN (op : Nibble) (nnn : Addr12) : fieldOp (wordNNN op nnn) = op := by
  refine BitVec.eq_of_getLsbD_eq fun k hk => ?_
  simp [fieldOp, hk, getLsbD_wordNNN]

@[simp] theorem fieldNNN_wordNNN (op : Nibble) (nnn : Addr12) : fieldNNN (wordNNN op nnn) = nnn := by
  refine BitVec.eq_of_getLsbD_eq fun k hk => ?_
  simp [fieldNNN, hk, getLsbD_wordNNN]

@[simp] theorem fieldKK_wordOfBytes (a b : Byte) : fieldKK (wordOfBytes a b) = b := by
  refine BitVec.eq_of_getLsbD_eq fun k hk => ?_
  simp [fieldKK, hk, getLsbD_wordOfBytes]

@[simp] theorem highByte_wordOfBytes (a b : Byte) : highByte (wordOfBytes a b) = a := by
  refine BitVec.eq_of_getLsbD_eq fun k hk => ?_
  simp [highByte, hk, getLsbD_wordOfBytes]

@[simp] theorem lowByte_wordOfBytes (a b : Byte) : lowByte (wordOfBytes a b) = b :=
  fieldKK_wordOfBytes a b

@[simp] theorem fieldOp_wordOfBytes (op x : Nibble) (b : Byte) : fieldOp (wordOfBytes (op ++ x) b) = op := by
  refine BitVec.eq_of_getLsbD_eq fun k hk => ?_
  rw [fieldOp, getLsbD_field _ _ _ hk, getLsbD_wordOfBytes, if_neg (by omega), getLsbD_nibbles, if_neg (by omega)]
  congr 1; omega

@[simp] theorem fieldX_wordOfBytes (op x : Nibble) (b : Byte) : fieldX (wordOfBytes (op ++ x) b) = x := by
  refine BitVec.eq_of_getLsbD_eq fun k hk => ?_
  rw [fieldX, getLsbD_field _ _ _ hk, getLsbD_wordOfBytes, if_neg (by omega), getLsbD_nibbles, if_pos (by omega)]
  congr 1; omega

@[simp] theorem fieldY_wordOfBytes (a : Byte) (y n : Nibble) : fieldY (wordOfBytes a (y ++ n)) = y := by
  refine BitVec.eq_of_getLsbD_eq fun k hk => ?_
  rw [fieldY, getLsbD_field _ _ _ hk, getLsbD_wordOfBytes, if_pos (by omega), getLsbD_nibbles, if_neg (by omega)]
  congr 1; omega

@[simp] theorem fieldN_wordOfBytes (a : Byte) (y n : Nibble) : fieldN (wordOfBytes a (y ++ n)) = n := by
  refine BitVec.eq_of_getLsbD_eq fun k hk => ?_
  rw [fieldN, getLsbD_field _ _ _ hk, getLsbD_wordOfBytes, if_pos (by omega), getLsbD_nibbles, if_pos (by omega)]
  congr 1; omega

@[simp] theorem fieldOp_wordXKK (op x : Nibble) (kk : Byte) : fieldOp (wordXKK op x kk) = op :=
  fieldOp_wordOfBytes op x kk
@[simp] theorem fieldX_wordXKK (op x : Nibble) (kk : Byte) : fieldX (wordXKK op x kk) = x :=
  fieldX_wordOfBytes op x kk
@[simp] theorem fieldKK_wordXKK (op x : Nibble) (kk : Byte) : fieldKK (wordXKK op x kk) = kk :=
  fieldKK_wordOfBytes _ kk
@[simp] theorem fieldOp_wordXYN (op x y n : Nibble) : fieldOp (wordXYN op x y n) = op :=
  fieldOp_wordOfBytes op x _
@[simp] theorem fieldX_wordXYN (op x y n : Nibble) : fieldX (wordXYN op x y n) = x :=
  fieldX_wordOfBytes op x _
@[simp] theorem fieldY_wordXYN (op x y n : Nibble) : fieldY (wordXYN op x y n) = y :=
  fieldY_wordOfBytes _ y n
@[simp] theorem fieldN_wordXYN (op x y n : Nibble) : fieldN (wordXYN op x y n) = n :=
  fieldN_wordOfBytes _ y n

/-! ### A word from its fields -/

theorem wordOfBytes_high_low (w : Word) : wordOfBytes (highByte w) (lowByte w) = w := by
  refine BitVec.eq_of_getLsbD_eq fun k hk => ?_
  rw [getLsbD_wordOfBytes, highByte, lowByte]
  split
  · rw [getLsbD_field _ _ _ (by omega), Nat.zero_add]
  · rw [getLsbD_field _ _ _ (by omega)]; congr 1; omega

theorem nibbles_high (w : Word) : (fieldOp w ++ fieldX w : Byte) = highByte w := by
  refine BitVec.eq_of_getLsbD_eq fun k hk => ?_
  rw [getLsbD_nibbles, fieldOp, fieldX, highByte, getLsbD_field _ _ _ hk]
  split
  · rw [getLsbD_field _ _ _ (by omega)]
  · rw [getLsbD_field _ _ _ (by omega)]; congr 1; omega

theorem nibbles_low (w : Word) : (fieldY w ++ fieldN w : Byte) = lowByte w := by
  refine BitVec.eq_of_getLsbD_eq fun k hk => ?_
  rw [getLsbD_nibbles, fieldY, fieldN, lowByte, getLsbD_field _ _ _ hk]
  split
  · rw [getLsbD_field _ _ _ (by omega)]
  · rw [getLsbD_field _ _ _ (by omega)]; congr 1; omega

theorem wordNNN_fields (w : Word) : wordNNN (fieldOp w) (fieldNNN w) = w := by
  refine BitVec.eq_of_getLsbD_eq fun k hk => ?_
  rw [getLsbD_wordNNN, fieldOp, fieldNNN]
  split
  · rw [getLsbD_field _ _ _ (by omega), Nat.zero_add]
  · rw [getLsbD_field _ _ _ (by omega)]; congr 1; omega

theorem wordXKK_fields (w : Word) : wordXKK (fieldOp w) (fieldX w) (fieldKK w) = w := by
  rw [wordXKK_eq, nibbles_high]; exact wordOfBytes_high_low w

theorem wordXYN_fields (w : Word) : wordXYN (fieldOp w) (fieldX w) (fieldY w) (fieldN w) = w := by
  rw [wordXYN_eq, nibbles_high, nibbles_low]; exact wordOfBytes_high_low w

/-- A word is known by its group and its low 12 bits. -/
theorem eq_wordNNN {w : Word} {op : Nibble} (h : fieldOp w = op) : w = wordNNN op (fieldNNN w) := by
  rw [← h, wordNNN_fields]

/-- A word is known by its group, `x` and its low byte. -/
theorem eq_wordXKK {w : Word} {op : Nibble} {kk : Byte} (h : fieldOp w = op) (hk : fieldKK w = kk) :
    w = wordXKK op (fieldX w) kk := by rw [← h, ← hk, wordXKK_fields]

/-- A word is known by its four nibbles. -/
theorem eq_wordXYN {w : Word} {op n : Nibble} (h : fieldOp w = op) (hn : fieldN w = n) :
    w = wordXYN op (fieldX w) (fieldY w) n := by rw [← h, ← hn, wordXYN_fields]

/-! ### Masks as fields (R75, R76) -/

theorem and_F000 (w : Word) : w &&& (0xF000 : Word) = wordNNN (fieldOp w) 0 := by
  refine BitVec.eq_of_getLsbD_eq fun k hk => ?_
  rw [BitVec.getLsbD_and, getLsbD_wordNNN, fieldOp]
  interval_cases k <;> simp

theorem and_F00F (w : Word) : w &&& (0xF00F : Word) = wordXYN (fieldOp w) 0 0 (fieldN w) := by
  refine BitVec.eq_of_getLsbD_eq fun k hk => ?_
  rw [BitVec.getLsbD_and, wordXYN_eq, getLsbD_wordOfBytes, getLsbD_nibbles, getLsbD_nibbles, fieldOp, fieldN]
  interval_cases k <;> simp

theorem and_F0FF (w : Word) : w &&& (0xF0FF : Word) = wordXKK (fieldOp w) 0 (fieldKK w) := by
  refine BitVec.eq_of_getLsbD_eq fun k hk => ?_
  rw [BitVec.getLsbD_and, wordXKK_eq, getLsbD_wordOfBytes, getLsbD_nibbles, fieldOp, fieldKK]
  interval_cases k <;> simp

theorem and_FFFF (w : Word) : w &&& (0xFFFF : Word) = w := BitVec.and_allOnes

/-- Mask F000 fixes the group. -/
theorem mask_group (w : Word) (c : Nibble) : w &&& (0xF000 : Word) = wordNNN c 0 ↔ fieldOp w = c := by
  rw [and_F000]
  exact ⟨fun h => by simpa using congrArg fieldOp h, fun h => by rw [h]⟩

/-- Mask F00F fixes the group and the low nibble. -/
theorem mask_groupN (w : Word) (c d : Nibble) :
    w &&& (0xF00F : Word) = wordXYN c 0 0 d ↔ fieldOp w = c ∧ fieldN w = d := by
  rw [and_F00F]
  refine ⟨fun h => ⟨by simpa using congrArg fieldOp h, by simpa using congrArg fieldN h⟩, ?_⟩
  rintro ⟨h1, h2⟩; rw [h1, h2]

/-- Mask F0FF fixes the group and the low byte. -/
theorem mask_groupKK (w : Word) (c : Nibble) (d : Byte) :
    w &&& (0xF0FF : Word) = wordXKK c 0 d ↔ fieldOp w = c ∧ fieldKK w = d := by
  rw [and_F0FF]
  refine ⟨fun h => ⟨by simpa using congrArg fieldOp h, by simpa using congrArg fieldKK h⟩, ?_⟩
  rintro ⟨h1, h2⟩; rw [h1, h2]

end Sys2Proof
end

