-- ==== Sys2Proof/Laws/Memory.lean ====
section
/-! SUPPORT. Memory: a read after a write (spec/20_memory.md R58), and that every operation keeps the canonical
form. The read laws hold of every cell list, canonical or not. -/

namespace Sys2Proof.Machine

/-! ### The reset contents -/

/-- In the font table an unlisted address reads as its byte of `FONT` (R33). -/
theorem initialByte_font (font : Font) (g : Fin 16) (q : Fin 5) :
    initialByte font (5 * g.val + q.val) = (font[g.val])[q.val] := by
  have hg : (5 * g.val + q.val) / 5 = g.val := by omega
  have hq : (5 * g.val + q.val) % 5 = q.val := by omega
  simp [initialByte, hg, hq, show 5 * g.val + q.val < 80 by omega]

/-- Above the font table an unlisted address reads as 0 (R39). -/
theorem initialByte_above (font : Font) {a : Nat} (h : 0x050 ≤ a) : initialByte font a = 0 := by
  simp [initialByte, show ¬ a < 80 by omega]

/-! ### One cell -/

theorem lookupCell_eraseCell (m : Memory) (a c : Nat) :
    lookupCell (eraseCell m a) c = if c = a then none else lookupCell m c := by
  induction m with
  | nil => simp [eraseCell, lookupCell]
  | cons p rest ih =>
    obtain ⟨k, b⟩ := p
    by_cases hk : k = a
    · subst hk
      by_cases hc : c = k
      · subst hc; simpa [eraseCell] using ih
      · simp [eraseCell, ih, hc, lookupCell, Ne.symm hc]
    · by_cases hc : c = a
      · subst hc; simp [eraseCell, hk, lookupCell, ih]
      · simp [eraseCell, hk, lookupCell, ih, hc]

theorem lookupCell_insertCell (m : Memory) (a c : Nat) (b : Byte) :
    lookupCell (insertCell m a b) c = if c = a then some b else lookupCell m c := by
  induction m with
  | nil =>
    by_cases hc : c = a
    · simp [insertCell, lookupCell, hc]
    · simp [insertCell, lookupCell, hc, Ne.symm hc]
  | cons p rest ih =>
    obtain ⟨k, d⟩ := p
    by_cases hlt : a < k
    · by_cases hc : c = a
      · simp [insertCell, hlt, lookupCell, hc]
      · simp [insertCell, hlt, lookupCell, hc, Ne.symm hc]
    · by_cases hk : a = k
      · subst hk
        by_cases hc : c = a
        · simp [insertCell, lookupCell, hc]
        · simp [insertCell, lookupCell, hc, Ne.symm hc]
      · by_cases hc : c = a
        · subst hc; simp [insertCell, hlt, hk, lookupCell, ih, Ne.symm hk]
        · simp [insertCell, hlt, hk, lookupCell, ih, hc]

/-! ### Read after write -/

/-- Everything a write does to a read, at the address and elsewhere. -/
theorem Memory.read_write (font : Font) (m : Memory) (a c : Nat) (b : Byte) :
    Memory.read font (Memory.write font m a b) c = if c = a then b else Memory.read font m c := by
  unfold Memory.read Memory.write
  by_cases hb : b = initialByte font a
  · by_cases hc : c = a
    · simp [hb, lookupCell_eraseCell, hc]
    · simp [hb, lookupCell_eraseCell, hc]
  · by_cases hc : c = a
    · simp [hb, lookupCell_insertCell, hc]
    · simp [hb, lookupCell_insertCell, hc]

/-- Everything a write of bytes at rising addresses does to a read. -/
theorem Memory.read_writeBytes (font : Font) (bs : List Byte) :
    ∀ (m : Memory) (a c : Nat), Memory.read font (Memory.writeBytes font m a bs) c =
      if a ≤ c then (bs[c - a]?).getD (Memory.read font m c) else Memory.read font m c := by
  induction bs with
  | nil => intro m a c; simp [Memory.writeBytes]
  | cons b rest ih =>
    intro m a c
    rw [Memory.writeBytes, ih, Memory.read_write]
    by_cases hac : a ≤ c
    · by_cases hca : c = a
      · subst hca; simp
      · have h1 : a + 1 ≤ c := by omega
        have h2 : c - a = (c - (a + 1)) + 1 := by omega
        simp [hac, hca, h1, h2]
    · have h1 : ¬ a + 1 ≤ c := by omega
      have h2 : c ≠ a := by omega
      simp [hac, h1, h2]

/-! ### The canonical form -/

theorem Memory.wf_nil (font : Font) : Memory.wf font [] = true := rfl

theorem Memory.wfFrom_mono {font : Font} {m : Memory} {lo lo' : Nat} (h : lo' ≤ lo)
    (hw : Memory.wfFrom font lo m = true) : Memory.wfFrom font lo' m = true := by
  cases m with
  | nil => rfl
  | cons p rest =>
    simp only [Memory.wfFrom, Bool.and_eq_true, decide_eq_true_eq] at hw ⊢
    exact ⟨⟨⟨by omega, hw.1.1.2⟩, hw.1.2⟩, hw.2⟩

theorem Memory.wfFrom_eraseCell {font : Font} {m : Memory} {lo a : Nat}
    (hw : Memory.wfFrom font lo m = true) : Memory.wfFrom font lo (eraseCell m a) = true := by
  induction m generalizing lo with
  | nil => rfl
  | cons p rest ih =>
    obtain ⟨k, b⟩ := p
    simp only [Memory.wfFrom, Bool.and_eq_true, decide_eq_true_eq] at hw
    have hr := ih hw.2
    by_cases hk : k = a
    · simp only [eraseCell, hk, if_true]
      exact Memory.wfFrom_mono (by omega) (hk ▸ hr)
    · simp only [eraseCell, hk, if_false, Memory.wfFrom, Bool.and_eq_true, decide_eq_true_eq]
      exact ⟨hw.1, hr⟩

theorem Memory.wfFrom_insertCell {font : Font} {m : Memory} {lo a : Nat} {b : Byte} (hlo : lo ≤ a)
    (ha : a < Config.memSize) (hb : b ≠ initialByte font a) (hw : Memory.wfFrom font lo m = true) :
    Memory.wfFrom font lo (insertCell m a b) = true := by
  induction m generalizing lo with
  | nil =>
    simp only [insertCell, Memory.wfFrom, Bool.and_eq_true, decide_eq_true_eq, Bool.and_true]
    exact ⟨⟨hlo, ha⟩, hb⟩
  | cons p rest ih =>
    obtain ⟨k, c⟩ := p
    simp only [Memory.wfFrom, Bool.and_eq_true, decide_eq_true_eq] at hw
    by_cases hlt : a < k
    · simp only [insertCell, hlt, if_true, Memory.wfFrom, Bool.and_eq_true, decide_eq_true_eq]
      exact ⟨⟨⟨hlo, ha⟩, hb⟩, ⟨⟨by omega, hw.1.1.2⟩, hw.1.2⟩, hw.2⟩
    · by_cases hk : a = k
      · subst hk
        simp only [insertCell, lt_self_iff_false, if_false, if_true, Memory.wfFrom, Bool.and_eq_true,
          decide_eq_true_eq]
        exact ⟨⟨⟨hlo, ha⟩, hb⟩, hw.2⟩
      · simp only [insertCell, hlt, hk, if_false, Memory.wfFrom, Bool.and_eq_true, decide_eq_true_eq]
        exact ⟨hw.1, ih (by omega) hw.2⟩

/-- A write of one byte of the address space keeps the canonical form. -/
theorem Memory.wf_write {font : Font} {m : Memory} {a : Nat} {b : Byte} (ha : a < Config.memSize)
    (hw : Memory.wf font m = true) : Memory.wf font (Memory.write font m a b) = true := by
  unfold Memory.write
  split
  · exact Memory.wfFrom_eraseCell hw
  · exact Memory.wfFrom_insertCell (Nat.zero_le _) ha ‹_› hw

/-- A write of bytes inside the address space keeps the canonical form. -/
theorem Memory.wf_writeBytes {font : Font} {bs : List Byte} {m : Memory} {a : Nat}
    (ha : a + bs.length ≤ Config.memSize ∨ bs = []) (hw : Memory.wf font m = true) :
    Memory.wf font (Memory.writeBytes font m a bs) = true := by
  induction bs generalizing m a with
  | nil => exact hw
  | cons b rest ih =>
    simp only [List.length_cons, reduceCtorEq, or_false] at ha
    exact ih (.inl (by omega)) (Memory.wf_write (by simp at *; omega) hw)

end Sys2Proof.Machine
end

