-- ==== Sys2Proof/Laws/State.lean ====
section
/-! SUPPORT. What each named update leaves in each field of the state, and what the accessors read after it. -/

namespace Sys2Proof.Machine

/-! ### The two views -/

@[simp] theorem nextAddr_eq (p : Word) : nextAddr p = p + 2 := rfl

/-- `SP_BITS` bits hold every legal sp (R24). -/
@[simp] theorem spRegister_toNat (s : State) : (spRegister s).toNat = s.sp.val := by
  have := s.sp.isLt
  simp [spRegister] at this ⊢; omega

/-! ### writeV -/

@[simp] theorem writeV_v (s : State) (x : Nibble) (b : Byte) : (writeV s x b).v = s.v.set x.toNat b x.isLt := rfl
@[simp] theorem writeV_i (s : State) (x : Nibble) (b : Byte) : (writeV s x b).i = s.i := rfl
@[simp] theorem writeV_pc (s : State) (x : Nibble) (b : Byte) : (writeV s x b).pc = s.pc := rfl
@[simp] theorem writeV_sp (s : State) (x : Nibble) (b : Byte) : (writeV s x b).sp = s.sp := rfl
@[simp] theorem writeV_stack (s : State) (x : Nibble) (b : Byte) : (writeV s x b).stack = s.stack := rfl
@[simp] theorem writeV_dt (s : State) (x : Nibble) (b : Byte) : (writeV s x b).dt = s.dt := rfl
@[simp] theorem writeV_st (s : State) (x : Nibble) (b : Byte) : (writeV s x b).st = s.st := rfl
@[simp] theorem writeV_mem (s : State) (x : Nibble) (b : Byte) : (writeV s x b).mem = s.mem := rfl
@[simp] theorem writeV_fb (s : State) (x : Nibble) (b : Byte) : (writeV s x b).fb = s.fb := rfl
@[simp] theorem writeV_keys (s : State) (x : Nibble) (b : Byte) : (writeV s x b).keys = s.keys := rfl
@[simp] theorem writeV_displayFlag (s : State) (x : Nibble) (b : Byte) : (writeV s x b).displayFlag = s.displayFlag := rfl
@[simp] theorem writeV_soundFlag (s : State) (x : Nibble) (b : Byte) : (writeV s x b).soundFlag = s.soundFlag := rfl
@[simp] theorem writeV_draws (s : State) (x : Nibble) (b : Byte) : (writeV s x b).draws = s.draws := rfl
@[simp] theorem writeV_font (s : State) (x : Nibble) (b : Byte) : (writeV s x b).font = s.font := rfl
@[simp] theorem readMem_writeV (s : State) (x : Nibble) (b : Byte) (m : Nat) : readMem (writeV s x b) m = readMem s m := rfl
@[simp] theorem pixel_writeV (s : State) (x : Nibble) (b : Byte) (q : Nat) : pixel (writeV s x b) q = pixel s q := rfl
@[simp] theorem anyKey_writeV (s : State) (x : Nibble) (b : Byte) : anyKey (writeV s x b) = anyKey s := rfl

/-! ### writeI -/

@[simp] theorem writeI_v (s : State) (a : Word) : (writeI s a).v = s.v := rfl
@[simp] theorem writeI_i (s : State) (a : Word) : (writeI s a).i = a := rfl
@[simp] theorem writeI_pc (s : State) (a : Word) : (writeI s a).pc = s.pc := rfl
@[simp] theorem writeI_sp (s : State) (a : Word) : (writeI s a).sp = s.sp := rfl
@[simp] theorem writeI_stack (s : State) (a : Word) : (writeI s a).stack = s.stack := rfl
@[simp] theorem writeI_dt (s : State) (a : Word) : (writeI s a).dt = s.dt := rfl
@[simp] theorem writeI_st (s : State) (a : Word) : (writeI s a).st = s.st := rfl
@[simp] theorem writeI_mem (s : State) (a : Word) : (writeI s a).mem = s.mem := rfl
@[simp] theorem writeI_fb (s : State) (a : Word) : (writeI s a).fb = s.fb := rfl
@[simp] theorem writeI_keys (s : State) (a : Word) : (writeI s a).keys = s.keys := rfl
@[simp] theorem writeI_displayFlag (s : State) (a : Word) : (writeI s a).displayFlag = s.displayFlag := rfl
@[simp] theorem writeI_soundFlag (s : State) (a : Word) : (writeI s a).soundFlag = s.soundFlag := rfl
@[simp] theorem writeI_draws (s : State) (a : Word) : (writeI s a).draws = s.draws := rfl
@[simp] theorem writeI_font (s : State) (a : Word) : (writeI s a).font = s.font := rfl
@[simp] theorem readV_writeI (s : State) (a : Word) (z : Nibble) : readV (writeI s a) z = readV s z := rfl
@[simp] theorem readMem_writeI (s : State) (a : Word) (m : Nat) : readMem (writeI s a) m = readMem s m := rfl
@[simp] theorem pixel_writeI (s : State) (a : Word) (q : Nat) : pixel (writeI s a) q = pixel s q := rfl
@[simp] theorem anyKey_writeI (s : State) (a : Word) : anyKey (writeI s a) = anyKey s := rfl

/-! ### writeMem -/

@[simp] theorem writeMem_v (s : State) (a : Nat) (b : Byte) : (writeMem s a b).v = s.v := rfl
@[simp] theorem writeMem_i (s : State) (a : Nat) (b : Byte) : (writeMem s a b).i = s.i := rfl
@[simp] theorem writeMem_pc (s : State) (a : Nat) (b : Byte) : (writeMem s a b).pc = s.pc := rfl
@[simp] theorem writeMem_sp (s : State) (a : Nat) (b : Byte) : (writeMem s a b).sp = s.sp := rfl
@[simp] theorem writeMem_stack (s : State) (a : Nat) (b : Byte) : (writeMem s a b).stack = s.stack := rfl
@[simp] theorem writeMem_dt (s : State) (a : Nat) (b : Byte) : (writeMem s a b).dt = s.dt := rfl
@[simp] theorem writeMem_st (s : State) (a : Nat) (b : Byte) : (writeMem s a b).st = s.st := rfl
@[simp] theorem writeMem_mem (s : State) (a : Nat) (b : Byte) : (writeMem s a b).mem = Memory.write s.font s.mem a b := rfl
@[simp] theorem writeMem_fb (s : State) (a : Nat) (b : Byte) : (writeMem s a b).fb = s.fb := rfl
@[simp] theorem writeMem_keys (s : State) (a : Nat) (b : Byte) : (writeMem s a b).keys = s.keys := rfl
@[simp] theorem writeMem_displayFlag (s : State) (a : Nat) (b : Byte) : (writeMem s a b).displayFlag = s.displayFlag := rfl
@[simp] theorem writeMem_soundFlag (s : State) (a : Nat) (b : Byte) : (writeMem s a b).soundFlag = s.soundFlag := rfl
@[simp] theorem writeMem_draws (s : State) (a : Nat) (b : Byte) : (writeMem s a b).draws = s.draws := rfl
@[simp] theorem writeMem_font (s : State) (a : Nat) (b : Byte) : (writeMem s a b).font = s.font := rfl
@[simp] theorem readV_writeMem (s : State) (a : Nat) (b : Byte) (z : Nibble) : readV (writeMem s a b) z = readV s z := rfl
@[simp] theorem pixel_writeMem (s : State) (a : Nat) (b : Byte) (q : Nat) : pixel (writeMem s a b) q = pixel s q := rfl
@[simp] theorem anyKey_writeMem (s : State) (a : Nat) (b : Byte) : anyKey (writeMem s a b) = anyKey s := rfl

/-! ### writeBytes -/

@[simp] theorem writeBytes_v (s : State) (a : Nat) (bs : List Byte) : (writeBytes s a bs).v = s.v := rfl
@[simp] theorem writeBytes_i (s : State) (a : Nat) (bs : List Byte) : (writeBytes s a bs).i = s.i := rfl
@[simp] theorem writeBytes_pc (s : State) (a : Nat) (bs : List Byte) : (writeBytes s a bs).pc = s.pc := rfl
@[simp] theorem writeBytes_sp (s : State) (a : Nat) (bs : List Byte) : (writeBytes s a bs).sp = s.sp := rfl
@[simp] theorem writeBytes_stack (s : State) (a : Nat) (bs : List Byte) : (writeBytes s a bs).stack = s.stack := rfl
@[simp] theorem writeBytes_dt (s : State) (a : Nat) (bs : List Byte) : (writeBytes s a bs).dt = s.dt := rfl
@[simp] theorem writeBytes_st (s : State) (a : Nat) (bs : List Byte) : (writeBytes s a bs).st = s.st := rfl
@[simp] theorem writeBytes_mem (s : State) (a : Nat) (bs : List Byte) : (writeBytes s a bs).mem = Memory.writeBytes s.font s.mem a bs := rfl
@[simp] theorem writeBytes_fb (s : State) (a : Nat) (bs : List Byte) : (writeBytes s a bs).fb = s.fb := rfl
@[simp] theorem writeBytes_keys (s : State) (a : Nat) (bs : List Byte) : (writeBytes s a bs).keys = s.keys := rfl
@[simp] theorem writeBytes_displayFlag (s : State) (a : Nat) (bs : List Byte) : (writeBytes s a bs).displayFlag = s.displayFlag := rfl
@[simp] theorem writeBytes_soundFlag (s : State) (a : Nat) (bs : List Byte) : (writeBytes s a bs).soundFlag = s.soundFlag := rfl
@[simp] theorem writeBytes_draws (s : State) (a : Nat) (bs : List Byte) : (writeBytes s a bs).draws = s.draws := rfl
@[simp] theorem writeBytes_font (s : State) (a : Nat) (bs : List Byte) : (writeBytes s a bs).font = s.font := rfl
@[simp] theorem readV_writeBytes (s : State) (a : Nat) (bs : List Byte) (z : Nibble) : readV (writeBytes s a bs) z = readV s z := rfl
@[simp] theorem pixel_writeBytes (s : State) (a : Nat) (bs : List Byte) (q : Nat) : pixel (writeBytes s a bs) q = pixel s q := rfl
@[simp] theorem anyKey_writeBytes (s : State) (a : Nat) (bs : List Byte) : anyKey (writeBytes s a bs) = anyKey s := rfl

/-! ### advance -/

@[simp] theorem advance_v (s : State) : (advance s).v = s.v := rfl
@[simp] theorem advance_i (s : State) : (advance s).i = s.i := rfl
@[simp] theorem advance_pc (s : State) : (advance s).pc = s.pc + 2 := rfl
@[simp] theorem advance_sp (s : State) : (advance s).sp = s.sp := rfl
@[simp] theorem advance_stack (s : State) : (advance s).stack = s.stack := rfl
@[simp] theorem advance_dt (s : State) : (advance s).dt = s.dt := rfl
@[simp] theorem advance_st (s : State) : (advance s).st = s.st := rfl
@[simp] theorem advance_mem (s : State) : (advance s).mem = s.mem := rfl
@[simp] theorem advance_fb (s : State) : (advance s).fb = s.fb := rfl
@[simp] theorem advance_keys (s : State) : (advance s).keys = s.keys := rfl
@[simp] theorem advance_displayFlag (s : State) : (advance s).displayFlag = s.displayFlag := rfl
@[simp] theorem advance_soundFlag (s : State) : (advance s).soundFlag = s.soundFlag := rfl
@[simp] theorem advance_draws (s : State) : (advance s).draws = s.draws := rfl
@[simp] theorem advance_font (s : State) : (advance s).font = s.font := rfl
@[simp] theorem readV_advance (s : State) (z : Nibble) : readV (advance s) z = readV s z := rfl
@[simp] theorem readMem_advance (s : State) (m : Nat) : readMem (advance s) m = readMem s m := rfl
@[simp] theorem pixel_advance (s : State) (q : Nat) : pixel (advance s) q = pixel s q := rfl
@[simp] theorem anyKey_advance (s : State) : anyKey (advance s) = anyKey s := rfl

/-! ### skipIf -/

@[simp] theorem skipIf_v (c : Bool) (s : State) : (skipIf c s).v = s.v := rfl
@[simp] theorem skipIf_i (c : Bool) (s : State) : (skipIf c s).i = s.i := rfl
@[simp] theorem skipIf_pc (c : Bool) (s : State) : (skipIf c s).pc = if c then s.pc + 4 else s.pc + 2 := by
  simp only [skipIf, nextAddr_eq, BitVec.add_assoc]; rfl
@[simp] theorem skipIf_sp (c : Bool) (s : State) : (skipIf c s).sp = s.sp := rfl
@[simp] theorem skipIf_stack (c : Bool) (s : State) : (skipIf c s).stack = s.stack := rfl
@[simp] theorem skipIf_dt (c : Bool) (s : State) : (skipIf c s).dt = s.dt := rfl
@[simp] theorem skipIf_st (c : Bool) (s : State) : (skipIf c s).st = s.st := rfl
@[simp] theorem skipIf_mem (c : Bool) (s : State) : (skipIf c s).mem = s.mem := rfl
@[simp] theorem skipIf_fb (c : Bool) (s : State) : (skipIf c s).fb = s.fb := rfl
@[simp] theorem skipIf_keys (c : Bool) (s : State) : (skipIf c s).keys = s.keys := rfl
@[simp] theorem skipIf_displayFlag (c : Bool) (s : State) : (skipIf c s).displayFlag = s.displayFlag := rfl
@[simp] theorem skipIf_soundFlag (c : Bool) (s : State) : (skipIf c s).soundFlag = s.soundFlag := rfl
@[simp] theorem skipIf_draws (c : Bool) (s : State) : (skipIf c s).draws = s.draws := rfl
@[simp] theorem skipIf_font (c : Bool) (s : State) : (skipIf c s).font = s.font := rfl
@[simp] theorem readV_skipIf (c : Bool) (s : State) (z : Nibble) : readV (skipIf c s) z = readV s z := rfl
@[simp] theorem readMem_skipIf (c : Bool) (s : State) (m : Nat) : readMem (skipIf c s) m = readMem s m := rfl
@[simp] theorem pixel_skipIf (c : Bool) (s : State) (q : Nat) : pixel (skipIf c s) q = pixel s q := rfl
@[simp] theorem anyKey_skipIf (c : Bool) (s : State) : anyKey (skipIf c s) = anyKey s := rfl

/-! ### jumpTo -/

@[simp] theorem jumpTo_v (a : Word) (s : State) : (jumpTo a s).v = s.v := rfl
@[simp] theorem jumpTo_i (a : Word) (s : State) : (jumpTo a s).i = s.i := rfl
@[simp] theorem jumpTo_pc (a : Word) (s : State) : (jumpTo a s).pc = a := rfl
@[simp] theorem jumpTo_sp (a : Word) (s : State) : (jumpTo a s).sp = s.sp := rfl
@[simp] theorem jumpTo_stack (a : Word) (s : State) : (jumpTo a s).stack = s.stack := rfl
@[simp] theorem jumpTo_dt (a : Word) (s : State) : (jumpTo a s).dt = s.dt := rfl
@[simp] theorem jumpTo_st (a : Word) (s : State) : (jumpTo a s).st = s.st := rfl
@[simp] theorem jumpTo_mem (a : Word) (s : State) : (jumpTo a s).mem = s.mem := rfl
@[simp] theorem jumpTo_fb (a : Word) (s : State) : (jumpTo a s).fb = s.fb := rfl
@[simp] theorem jumpTo_keys (a : Word) (s : State) : (jumpTo a s).keys = s.keys := rfl
@[simp] theorem jumpTo_displayFlag (a : Word) (s : State) : (jumpTo a s).displayFlag = s.displayFlag := rfl
@[simp] theorem jumpTo_soundFlag (a : Word) (s : State) : (jumpTo a s).soundFlag = s.soundFlag := rfl
@[simp] theorem jumpTo_draws (a : Word) (s : State) : (jumpTo a s).draws = s.draws := rfl
@[simp] theorem jumpTo_font (a : Word) (s : State) : (jumpTo a s).font = s.font := rfl
@[simp] theorem readV_jumpTo (a : Word) (s : State) (z : Nibble) : readV (jumpTo a s) z = readV s z := rfl
@[simp] theorem readMem_jumpTo (a : Word) (s : State) (m : Nat) : readMem (jumpTo a s) m = readMem s m := rfl
@[simp] theorem pixel_jumpTo (a : Word) (s : State) (q : Nat) : pixel (jumpTo a s) q = pixel s q := rfl
@[simp] theorem anyKey_jumpTo (a : Word) (s : State) : anyKey (jumpTo a s) = anyKey s := rfl

/-! ### clearFlags -/

@[simp] theorem clearFlags_v (s : State) : (clearFlags s).v = s.v := rfl
@[simp] theorem clearFlags_i (s : State) : (clearFlags s).i = s.i := rfl
@[simp] theorem clearFlags_pc (s : State) : (clearFlags s).pc = s.pc := rfl
@[simp] theorem clearFlags_sp (s : State) : (clearFlags s).sp = s.sp := rfl
@[simp] theorem clearFlags_stack (s : State) : (clearFlags s).stack = s.stack := rfl
@[simp] theorem clearFlags_dt (s : State) : (clearFlags s).dt = s.dt := rfl
@[simp] theorem clearFlags_st (s : State) : (clearFlags s).st = s.st := rfl
@[simp] theorem clearFlags_mem (s : State) : (clearFlags s).mem = s.mem := rfl
@[simp] theorem clearFlags_fb (s : State) : (clearFlags s).fb = s.fb := rfl
@[simp] theorem clearFlags_keys (s : State) : (clearFlags s).keys = s.keys := rfl
@[simp] theorem clearFlags_displayFlag (s : State) : (clearFlags s).displayFlag = false := rfl
@[simp] theorem clearFlags_soundFlag (s : State) : (clearFlags s).soundFlag = false := rfl
@[simp] theorem clearFlags_draws (s : State) : (clearFlags s).draws = s.draws := rfl
@[simp] theorem clearFlags_font (s : State) : (clearFlags s).font = s.font := rfl
@[simp] theorem readV_clearFlags (s : State) (z : Nibble) : readV (clearFlags s) z = readV s z := rfl
@[simp] theorem readMem_clearFlags (s : State) (m : Nat) : readMem (clearFlags s) m = readMem s m := rfl
@[simp] theorem pixel_clearFlags (s : State) (q : Nat) : pixel (clearFlags s) q = pixel s q := rfl
@[simp] theorem anyKey_clearFlags (s : State) : anyKey (clearFlags s) = anyKey s := rfl

/-! ### setKey -/

@[simp] theorem setKey_v (k : Fin Config.numKeys) (b : Bool) (s : State) : (setKey k b s).v = s.v := rfl
@[simp] theorem setKey_i (k : Fin Config.numKeys) (b : Bool) (s : State) : (setKey k b s).i = s.i := rfl
@[simp] theorem setKey_pc (k : Fin Config.numKeys) (b : Bool) (s : State) : (setKey k b s).pc = s.pc := rfl
@[simp] theorem setKey_sp (k : Fin Config.numKeys) (b : Bool) (s : State) : (setKey k b s).sp = s.sp := rfl
@[simp] theorem setKey_stack (k : Fin Config.numKeys) (b : Bool) (s : State) : (setKey k b s).stack = s.stack := rfl
@[simp] theorem setKey_dt (k : Fin Config.numKeys) (b : Bool) (s : State) : (setKey k b s).dt = s.dt := rfl
@[simp] theorem setKey_st (k : Fin Config.numKeys) (b : Bool) (s : State) : (setKey k b s).st = s.st := rfl
@[simp] theorem setKey_mem (k : Fin Config.numKeys) (b : Bool) (s : State) : (setKey k b s).mem = s.mem := rfl
@[simp] theorem setKey_fb (k : Fin Config.numKeys) (b : Bool) (s : State) : (setKey k b s).fb = s.fb := rfl
@[simp] theorem setKey_keys (k : Fin Config.numKeys) (b : Bool) (s : State) : (setKey k b s).keys = s.keys.set k.val b k.isLt := rfl
@[simp] theorem setKey_displayFlag (k : Fin Config.numKeys) (b : Bool) (s : State) : (setKey k b s).displayFlag = s.displayFlag := rfl
@[simp] theorem setKey_soundFlag (k : Fin Config.numKeys) (b : Bool) (s : State) : (setKey k b s).soundFlag = s.soundFlag := rfl
@[simp] theorem setKey_draws (k : Fin Config.numKeys) (b : Bool) (s : State) : (setKey k b s).draws = s.draws := rfl
@[simp] theorem setKey_font (k : Fin Config.numKeys) (b : Bool) (s : State) : (setKey k b s).font = s.font := rfl
@[simp] theorem readV_setKey (k : Fin Config.numKeys) (b : Bool) (s : State) (z : Nibble) : readV (setKey k b s) z = readV s z := rfl
@[simp] theorem readMem_setKey (k : Fin Config.numKeys) (b : Bool) (s : State) (m : Nat) : readMem (setKey k b s) m = readMem s m := rfl
@[simp] theorem pixel_setKey (k : Fin Config.numKeys) (b : Bool) (s : State) (q : Nat) : pixel (setKey k b s) q = pixel s q := rfl

/-! ### Accessors read one field each -/

theorem readV_congr {s t : State} (h : t.v = s.v) (x : Nibble) : readV t x = readV s x := by simp [readV, h]
theorem readMem_congr {s t : State} (hm : t.mem = s.mem) (hf : t.font = s.font) (a : Nat) :
    readMem t a = readMem s a := by simp [readMem, hm, hf]
theorem pixel_congr {s t : State} (h : t.fb = s.fb) (k : Nat) : pixel t k = pixel s k := by simp [pixel, h]

end Sys2Proof.Machine
end

