-- ==== Sys2Proof/Laws/Ops.lean ====
section
/-! SUPPORT. For each shared operation, what it does: registers, ranges of memory, flags, sprites, the tick. -/

namespace Sys2Proof.Machine

/-! ### Registers -/

/-- Everything a register write does to a register read (R20). -/
theorem readV_writeV (s : State) (x z : Nibble) (b : Byte) :
    readV (writeV s x b) z = if z = x then b else readV s z := by
  simp only [readV, writeV]
  rw [Vector.getElem_set]
  by_cases h : z = x
  · simp [h]
  · have : x.toNat ≠ z.toNat := fun e => h (BitVec.eq_of_toNat_eq e.symm)
    simp [h, this]

@[simp] theorem readV_writeV_self (s : State) (x : Nibble) (b : Byte) : readV (writeV s x b) x = b := by
  simp [readV_writeV]

theorem readV_writeV_of_ne (s : State) {x z : Nibble} (b : Byte) (h : z ≠ x) :
    readV (writeV s x b) z = readV s z := by simp [readV_writeV, h]

/-- Everything `flagThenResult` does to a register read (R150): the result goes to Vx last. -/
theorem readV_flagThenResult (x z : Nibble) (f : Byte) (r : State → Byte) (s : State) :
    readV (flagThenResult x f r s) z =
      if z = x then r (writeV s VF f) else if z = VF then f else readV s z := by
  simp only [flagThenResult, readV_writeV]

/-- What `flagThenResult` leaves alone: everything but the register file. -/
theorem flagThenResult_eq (x : Nibble) (f : Byte) (r : State → Byte) (s : State) :
    ∃ v, flagThenResult x f r s = { s with v := v } := ⟨_, rfl⟩

/-- Everything `writeRegs` does to a register read (R192). -/
theorem readV_writeRegs (bs : List Byte) : ∀ (s : State) (k : Nat) (z : Nibble), k + bs.length ≤ 16 →
    readV (writeRegs s k bs) z =
      if k ≤ z.toNat then (bs[z.toNat - k]?).getD (readV s z) else readV s z := by
  induction bs with
  | nil => intro s k z _; simp [writeRegs]
  | cons b rest ih =>
    intro s k z hk
    simp only [List.length_cons] at hk
    rw [writeRegs, ih _ _ _ (by omega), readV_writeV]
    have hz := z.isLt
    have hkn : (BitVec.ofNat 4 k).toNat = k := by simp [BitVec.toNat_ofNat]; omega
    by_cases h1 : k ≤ z.toNat
    · by_cases h2 : z = BitVec.ofNat 4 k
      · have h3 : z.toNat = k := by rw [h2, hkn]
        simp [h3, ← h2]
      · have h3 : z.toNat ≠ k := fun e => h2 (BitVec.eq_of_toNat_eq (by rw [hkn, e]))
        have h4 : k + 1 ≤ z.toNat := by omega
        have h5 : z.toNat - k = (z.toNat - (k + 1)) + 1 := by omega
        simp [h1, h2, h4, h5]
    · have h2 : z ≠ BitVec.ofNat 4 k := fun e => h1 (by rw [e, hkn])
      have h4 : ¬ k + 1 ≤ z.toNat := by omega
      simp [h1, h2, h4]

/-- What `writeRegs` leaves alone: everything but the register file. -/
theorem writeRegs_eq (bs : List Byte) : ∀ (s : State) (k : Nat), ∃ v, writeRegs s k bs = { s with v := v } := by
  induction bs with
  | nil => intro s k; exact ⟨s.v, rfl⟩
  | cons b rest ih =>
    intro s k
    obtain ⟨v, hv⟩ := ih (writeV s (BitVec.ofNat 4 k) b) (k + 1)
    exact ⟨v, by rw [writeRegs, hv]; rfl⟩

/-! ### Memory -/

/-- Everything a byte store does to a byte read (R58). -/
theorem readMem_writeMem (s : State) (a c : Nat) (b : Byte) :
    readMem (writeMem s a b) c = if c = a then b else readMem s c := Memory.read_write s.font s.mem a c b

/-- Everything a store of bytes does to a byte read (R57, R58). -/
theorem readMem_writeBytes (s : State) (a c : Nat) (bs : List Byte) :
    readMem (writeBytes s a bs) c =
      if a ≤ c then (bs[c - a]?).getD (readMem s c) else readMem s c :=
  Memory.read_writeBytes s.font bs s.mem a c

@[simp] theorem readBytes_length (s : State) (a n : Nat) : (readBytes s a n).length = n := by simp [readBytes]

theorem readBytes_getElem? (s : State) (a n r : Nat) :
    (readBytes s a n)[r]? = if r < n then some (readMem s (a + r)) else none := by
  by_cases h : r < n
  · simp [readBytes, h]
  · simp [readBytes, h]

theorem readBytes_getElem (s : State) (a n r : Nat) (h : r < (readBytes s a n).length) :
    (readBytes s a n)[r] = readMem s (a + r) := by simp [readBytes]

@[simp] theorem firstRegs_length (s : State) (n : Nat) : (firstRegs s n).length = n := by simp [firstRegs]

theorem firstRegs_getElem? (s : State) (n k : Nat) :
    (firstRegs s n)[k]? = if k < n then some (readV s (BitVec.ofNat 4 k)) else none := by
  by_cases h : k < n
  · simp [firstRegs, h]
  · simp [firstRegs, h]

theorem firstRegs_getElem (s : State) (n k : Nat) (h : k < (firstRegs s n).length) :
    (firstRegs s n)[k] = readV s (BitVec.ofNat 4 k) := by simp [firstRegs]

@[simp] theorem decimalDigits_length (b : Byte) : (decimalDigits b).length = 3 := rfl

/-- An access passes its check exactly when every byte of it exists (R53, R56). -/
theorem accessFault_eq_none {a n : Nat} : accessFault a n = none ↔ ∀ r, r < n → a + r ≤ 0xFFF := by
  unfold accessFault
  simp only [Config.memSize, Config.addrBits, Nat.reducePow]
  constructor
  · intro h
    split at h
    · intro r hr; omega
    · simp at h
  · intro h
    by_cases hn : n = 0
    · simp [hn]
    · have := h (n - 1) (by omega)
      have : a + n ≤ 4096 ∨ n = 0 := by omega
      simp [this]

/-- An access fails its check with the lowest of its addresses above 0xFFF (R206, R212). -/
theorem accessFault_eq_some {a n c : Nat} : accessFault a n = some c ↔ LowestAbove c a n := by
  unfold accessFault LowestAbove
  simp only [Config.memSize, Config.addrBits, Nat.reducePow]
  constructor
  · intro h
    split at h
    · simp at h
    · simp only [Option.some.injEq] at h
      refine ⟨⟨c - a, by omega, by omega⟩, by omega, fun r hr h2 => by omega⟩
  · rintro ⟨⟨r, hr, rfl⟩, h1, h2⟩
    have h3 : ¬ (a + n ≤ 4096 ∨ n = 0) := by omega
    simp only [h3, if_false, Option.some.injEq]
    by_cases h4 : 4096 ≤ a
    · have := h2 0 (by omega) (by omega); omega
    · have := h2 (4096 - a) (by omega) (by omega); omega

/-- Everything `withAccess` can answer. -/
theorem withAccess_eq (n : Nat) (s k : State) :
    (withAccess n s k = .next k ∧ ∀ r, r < n → s.i.toNat + r ≤ 0xFFF) ∨
    (∃ c, withAccess n s k = .fault (.memoryOutOfRange c) ∧ LowestAbove c s.i.toNat n) := by
  unfold withAccess
  cases h : accessFault (baseAddr s) n with
  | none => exact .inl ⟨rfl, accessFault_eq_none.1 h⟩
  | some c => exact .inr ⟨c, rfl, accessFault_eq_some.1 h⟩

/-! ### Keys -/

/-- Everything `withKey` can answer. -/
theorem withKey_eq (x : Nibble) (s : State) (f : Bool → Outcome) :
    (∃ k : Fin Config.numKeys, k.val = (readV s x).toNat ∧ withKey x s f = f s.keys[k.val]) ∨
    (15 < (readV s x).toNat ∧ withKey x s f = .fault (.keyIndexOutOfRange (readV s x))) := by
  unfold withKey
  split
  · next h => exact .inl ⟨⟨_, h⟩, rfl, rfl⟩
  · next h => exact .inr ⟨by simp at h; omega, rfl⟩

theorem anyKey_iff (s : State) : anyKey s = true ↔ ∃ k : Fin Config.numKeys, s.keys[k.val] = true := by
  simp only [anyKey, List.any_eq_true, id]
  constructor
  · rintro ⟨b, hb, rfl⟩
    obtain ⟨k, hk, h⟩ := List.mem_iff_getElem.1 hb
    exact ⟨⟨k, by simpa using hk⟩, by simpa using h⟩
  · rintro ⟨k, hk⟩
    exact ⟨true, List.mem_iff_getElem.2 ⟨k.val, by simp, by simpa using hk⟩, rfl⟩

/-! ### Sprites -/

theorem mem_rowPixels {col row : Nat} {b : Byte} {p : Nat × Nat} :
    p ∈ rowPixels col row b ↔ ∃ c, c < 8 ∧ b.getLsbD (7 - c) = true ∧ p = (col + c, row) := by
  simp only [rowPixels, List.mem_map, List.mem_filter, List.mem_range]
  constructor
  · rintro ⟨c, ⟨h1, h2⟩, rfl⟩; exact ⟨c, h1, h2, rfl⟩
  · rintro ⟨c, h1, h2, rfl⟩; exact ⟨c, ⟨h1, h2⟩, rfl⟩

/-- The pixels of a sprite are those of its 1 bits (R101, R103). -/
theorem mem_spritePixels {bs : List Byte} {col row : Nat} {p : Nat × Nat} :
    p ∈ spritePixels col row bs ↔
      ∃ r c b, bs[r]? = some b ∧ c < 8 ∧ b.getLsbD (7 - c) = true ∧ p = (col + c, row + r) := by
  induction bs generalizing row with
  | nil => simp [spritePixels]
  | cons b rest ih =>
    simp only [spritePixels, List.mem_append, mem_rowPixels, ih]
    constructor
    · rintro (⟨c, h1, h2, rfl⟩ | ⟨r, c, d, h1, h2, h3, rfl⟩)
      · exact ⟨0, c, b, rfl, h1, h2, rfl⟩
      · exact ⟨r + 1, c, d, by simpa using h1, h2, h3, by simp; omega⟩
    · rintro ⟨r, c, d, h1, h2, h3, rfl⟩
      cases r with
      | zero => simp at h1; subst h1; exact .inl ⟨c, h2, h3, rfl⟩
      | succ r => exact .inr ⟨r, c, d, by simpa using h1, h2, h3, by simp; omega⟩

/-- The pixels of the sprite a state has at I, in the terms of Safety.lean. -/
theorem mem_sprite {s : State} {n : Nibble} {col row : Nat} {p : Nat × Nat} :
    p ∈ spritePixels col row (readBytes s (baseAddr s) n.toNat) ↔
      ∃ r c, SpriteBit s n r c ∧ p = (col + c, row + r) := by
  rw [mem_spritePixels]
  constructor
  · rintro ⟨r, c, b, h1, h2, h3, rfl⟩
    rw [readBytes_getElem?] at h1
    by_cases hr : r < n.toNat
    · simp only [hr, if_true, Option.some.injEq] at h1
      subst h1; exact ⟨r, c, ⟨hr, h2, h3⟩, rfl⟩
    · simp [hr] at h1
  · rintro ⟨r, c, ⟨h1, h2, h3⟩, rfl⟩
    exact ⟨r, c, _, by rw [readBytes_getElem?, if_pos h1]; rfl, h2, h3, rfl⟩

/-- Row-then-column order (R212). -/
def RowColLt (p q : Nat × Nat) : Prop := p.2 < q.2 ∨ (p.2 = q.2 ∧ p.1 < q.1)

/-- A sprite's pixels come row by row and left to right, each once (R101). -/
theorem spritePixels_pairwise (bs : List Byte) (col row : Nat) :
    (spritePixels col row bs).Pairwise RowColLt := by
  induction bs generalizing row with
  | nil => simp [spritePixels]
  | cons b rest ih =>
    rw [spritePixels, List.pairwise_append]
    refine ⟨?_, ih (row + 1), ?_⟩
    · rw [rowPixels, List.pairwise_map]
      refine List.Pairwise.imp ?_ (List.pairwise_lt_range.filter _)
      intro c d h; exact .inr ⟨rfl, by simp; omega⟩
    · intro p hp q hq
      obtain ⟨c, -, -, rfl⟩ := mem_rowPixels.1 hp
      obtain ⟨r, d, -, -, -, -, rfl⟩ := mem_spritePixels.1 hq
      exact .inl (by simp; omega)

theorem offGrid_eq_true {p : Nat × Nat} : offGrid p = true ↔ 63 < p.1 ∨ 31 < p.2 := by
  simp only [offGrid, Config.fbW, Config.fbH, Bool.or_eq_true, decide_eq_true_eq]; omega

/-- The pixel reported is the first in row-then-column order among those outside the grid (R104, R212). -/
theorem find_offGrid_eq_some {ps : List (Nat × Nat)} (hp : ps.Pairwise RowColLt) {p : Nat × Nat} :
    ps.find? offGrid = some p ↔
      p ∈ ps ∧ offGrid p = true ∧ ∀ q ∈ ps, offGrid q = true → q = p ∨ RowColLt p q := by
  induction ps with
  | nil => simp
  | cons a rest ih =>
    rw [List.pairwise_cons] at hp
    by_cases ha : offGrid a = true
    · rw [List.find?_cons_of_pos ha]
      constructor
      · rintro h; cases h
        exact ⟨List.mem_cons_self, ha, fun q hq _ => by
          rcases List.mem_cons.1 hq with rfl | h
          · exact .inl rfl
          · exact .inr (hp.1 q h)⟩
      · rintro ⟨h1, h2, h3⟩
        rcases List.mem_cons.1 h1 with rfl | h
        · rfl
        · rcases h3 a List.mem_cons_self ha with rfl | h4
          · rfl
          · have h5 := hp.1 p h
            simp only [RowColLt] at h4 h5; omega
    · rw [List.find?_cons_of_neg (by simpa using ha), ih hp.2]
      constructor
      · rintro ⟨h1, h2, h3⟩
        refine ⟨List.mem_cons_of_mem _ h1, h2, fun q hq hq2 => ?_⟩
        rcases List.mem_cons.1 hq with rfl | h
        · exact absurd hq2 ha
        · exact h3 q h hq2
      · rintro ⟨h1, h2, h3⟩
        rcases List.mem_cons.1 h1 with rfl | h
        · exact absurd h2 ha
        · exact ⟨h, h2, fun q hq => h3 q (List.mem_cons_of_mem _ hq)⟩

theorem getLsbD_twoPow_fb (k m : Nat) :
    (BitVec.twoPow (Config.fbW * Config.fbH) k).getLsbD m = (decide (m < 2048) && decide (k = m)) := by
  rw [BitVec.getLsbD_twoPow]
  by_cases h : k = m
  · subst h; simp
  · simp [h]

/-- Everything drawing pixels does (R101): pixels with distinct indices are each inverted, the others keep their
value, and a collision is a pixel that was 1. -/
theorem foldl_plotPixel (ps : List (Nat × Nat)) : ∀ (fb : BitVec (Config.fbW * Config.fbH)) (b : Bool),
    (ps.map pixelIndex).Nodup →
    (∀ m, (ps.foldl plotPixel (fb, b)).1.getLsbD m =
      (fb.getLsbD m != (decide (m < 2048) && decide (m ∈ ps.map pixelIndex)))) ∧
    ((ps.foldl plotPixel (fb, b)).2 = true ↔ b = true ∨ ∃ p ∈ ps, fb.getLsbD (pixelIndex p) = true) := by
  induction ps with
  | nil => intro fb b _; simp
  | cons p rest ih =>
    intro fb b hn
    rw [List.map_cons, List.nodup_cons] at hn
    obtain ⟨h1, h2⟩ := ih (fb ^^^ BitVec.twoPow _ (pixelIndex p)) (b || fb.getLsbD (pixelIndex p)) hn.2
    rw [List.foldl_cons]
    refine ⟨fun m => ?_, ?_⟩
    · rw [plotPixel, h1, BitVec.getLsbD_xor, getLsbD_twoPow_fb]
      by_cases hm : pixelIndex p = m
      · subst hm
        simp only [hn.1, decide_false, Bool.and_false, Bool.bne_false, List.map_cons, List.mem_cons_self,
          decide_true, Bool.and_true]
      · have hm2 : m ≠ pixelIndex p := fun e => hm e.symm
        simp only [hm, decide_false, Bool.and_false, Bool.xor_false, List.map_cons, List.mem_cons, hm2, false_or]
    · rw [plotPixel, h2]
      have key : ∀ q ∈ rest, (fb ^^^ BitVec.twoPow _ (pixelIndex p)).getLsbD (pixelIndex q) =
          fb.getLsbD (pixelIndex q) := by
        intro q hq
        have : pixelIndex p ≠ pixelIndex q := fun e => hn.1 (e ▸ List.mem_map_of_mem hq)
        rw [BitVec.getLsbD_xor, getLsbD_twoPow_fb]; simp [this]
      simp only [Bool.or_eq_true, List.mem_cons]
      constructor
      · rintro ((h | h) | ⟨q, hq, h⟩)
        · exact .inl h
        · exact .inr ⟨p, .inl rfl, h⟩
        · exact .inr ⟨q, .inr hq, by rw [← key q hq]; exact h⟩
      · rintro (h | ⟨q, rfl | hq, h⟩)
        · exact .inl (.inl h)
        · exact .inl (.inr h)
        · exact .inr ⟨q, hq, by rw [key q hq]; exact h⟩

/-- Pixels in the grid, in row-then-column order, have distinct indices (R29, R101). -/
theorem nodup_pixelIndex {ps : List (Nat × Nat)} (hp : ps.Pairwise RowColLt)
    (hg : ps.find? offGrid = none) : (ps.map pixelIndex).Nodup := by
  rw [List.Nodup, List.pairwise_map]
  refine List.Pairwise.imp_of_mem ?_ hp
  intro a b ha hb h
  rw [List.find?_eq_none] at hg
  have h1 := hg a ha
  have h2 := hg b hb
  rw [offGrid_eq_true] at h1 h2
  simp only [RowColLt] at h
  simp only [pixelIndex, Config.fbW]
  omega

end Sys2Proof.Machine
end

