-- ==== Sys2Proof/Laws/Step.lean ====
section
/-! SUPPORT. What fetching and a step can answer, once: later proofs cite these and do not unfold `step`
(spec/30_encoding.md R70, 60_exceptions.md R212). -/

namespace Sys2Proof

/-- A word that does not decode is reported as itself. -/
theorem decodeWord_error {w : Word} {e : DecodeReject} (h : decodeWord w = .error e) : e = .unknownWord w := by
  unfold decodeWord decodeGroup0 decodeGroup8 decodeGroupE decodeGroupF at h
  repeat' split at h
  all_goals first | exact (Except.error.inj h).symm | exact absurd h (by simp)

end Sys2Proof

namespace Sys2Proof.Machine

theorem fetchable_iff {p : Word} : fetchable p = true ↔ 0x200 ≤ p.toNat ∧ p.toNat ≤ 0xFFE := by
  simp [fetchable]

/-- What a state fetches is one word. -/
theorem fetches_iff {s : State} {w : Word} : Fetches s w ↔ fetchable s.pc = true ∧ w = fetchWord s := by
  rw [fetchable_iff, and_assoc]; rfl

theorem fetchesInstr_iff {s : State} {i : Instr} :
    FetchesInstr s i ↔ fetchable s.pc = true ∧ decodeWord (fetchWord s) = .ok i := by
  constructor
  · rintro ⟨w, hw, hd⟩
    obtain ⟨h1, rfl⟩ := fetches_iff.1 hw
    exact ⟨h1, hd⟩
  · rintro ⟨h1, hd⟩; exact ⟨_, fetches_iff.2 ⟨h1, rfl⟩, hd⟩

/-- A state fetches at most one instruction. -/
theorem FetchesInstr.unique {s : State} {i j : Instr} (hi : FetchesInstr s i) (hj : FetchesInstr s j) : i = j := by
  rw [fetchesInstr_iff] at hi hj
  exact Except.ok.inj (hi.2.symm.trans hj.2)

/-- The output flags have no part in fetching. -/
@[simp] theorem fetchesInstr_clearFlags {s : State} {i : Instr} :
    FetchesInstr (clearFlags s) i ↔ FetchesInstr s i := Iff.rfl

@[simp] theorem fetchWord_clearFlags (s : State) : fetchWord (clearFlags s) = fetchWord s := rfl

/-- Everything a step can do: the fetch range, the decoding, then the instruction. -/
theorem step_cases (s : State) :
    (fetchable s.pc = false ∧ step s = .fault (.fetchOutOfRange s.pc)) ∨
    (fetchable s.pc = true ∧ decodeWord (fetchWord s) = .error (.unknownWord (fetchWord s)) ∧
      step s = .fault (.unknownInstruction (fetchWord s))) ∨
    (∃ i, FetchesInstr s i ∧ step s = exec i (clearFlags s)) := by
  by_cases hf : fetchable s.pc = true
  · refine .inr ?_
    cases hd : decodeWord (fetchWord s) with
    | ok i =>
      refine .inr ⟨i, fetchesInstr_iff.2 ⟨hf, hd⟩, ?_⟩
      simp [step, fetchDecode, hf, hd]
    | error e =>
      refine .inl ⟨hf, by rw [decodeWord_error hd], ?_⟩
      simp [step, fetchDecode, hf, hd, raise]
  · exact .inl ⟨by simpa using hf, by simp [step, fetchDecode, hf, raise]⟩

/-- A step that completes ran the instruction fetched. -/
theorem step_eq_exec {s : State} {i : Instr} (h : FetchesInstr s i) : step s = exec i (clearFlags s) := by
  rcases step_cases s with ⟨h1, -⟩ | ⟨-, h1, -⟩ | ⟨j, hj, h1⟩
  · rw [fetchesInstr_iff] at h; rw [h1] at h; exact absurd h.1 (by simp)
  · rw [fetchesInstr_iff, h1] at h; exact absurd h.2 (by simp)
  · rw [h1, h.unique hj]

end Sys2Proof.Machine
end

