-- ==== Sys2Proof/Laws/Exec.lean ====
section
/-! SUPPORT. What the meanings that can raise a diagnostic answer, once each; every other meaning is one `.next` of
named operations (spec/40_display.md to 48_memory_ops.md). -/

namespace Sys2Proof.Machine

/-- The sprite that `Dxyn` draws in a state: its 1 pixels in drawing order (R101). -/
def drwPixels (x y n : Nibble) (s : State) : List (Nat × Nat) :=
  spritePixels (readV s x).toNat (readV s y).toNat (readBytes s (baseAddr s) n.toNat)

/-- The state after `Dxyn` draws its sprite (R101). -/
def drwState (x y n : Nibble) (s : State) : State :=
  let drawn := plotSprite s.fb (drwPixels x y n s)
  advance { writeV s VF (b2n drawn.2) with fb := drawn.1, displayFlag := true }

theorem mem_drwPixels {x y n : Nibble} {s : State} {p : Nat × Nat} :
    p ∈ drwPixels x y n s ↔
      ∃ r c, SpriteBit s n r c ∧ p = ((readV s x).toNat + c, (readV s y).toNat + r) := mem_sprite

theorem drwPixels_pairwise (x y n : Nibble) (s : State) : (drwPixels x y n s).Pairwise RowColLt :=
  spritePixels_pairwise _ _ _

theorem covers_iff {x y n : Nibble} {s : State} {k : Nat} :
    Covers s x y n k ↔ k ∈ (drwPixels x y n s).map pixelIndex := by
  rw [List.mem_map]
  constructor
  · rintro ⟨r, c, h, rfl⟩; exact ⟨_, mem_drwPixels.2 ⟨r, c, h, rfl⟩, rfl⟩
  · rintro ⟨p, hp, rfl⟩
    obtain ⟨r, c, h, rfl⟩ := mem_drwPixels.1 hp
    exact ⟨r, c, h, rfl⟩

/-- Every pixel of the sprite is inside the grid (R104). -/
theorem find_drwPixels_eq_none {x y n : Nibble} {s : State} :
    (drwPixels x y n s).find? offGrid = none ↔ ∀ r c, SpriteBit s n r c → ¬ OutsideGrid s x y r c := by
  rw [List.find?_eq_none]
  constructor
  · intro h r c hb ho
    exact h _ (mem_drwPixels.2 ⟨r, c, hb, rfl⟩) (offGrid_eq_true.2 ho)
  · intro h p hp ho
    obtain ⟨r, c, hb, rfl⟩ := mem_drwPixels.1 hp
    exact h r c hb (offGrid_eq_true.1 ho)

/-- Everything `Dxyn` can answer: memory is checked before the grid (R101, R212). -/
theorem execDrw_cases (x y n : Nibble) (s : State) :
    (∃ a, LowestAbove a s.i.toNat n.toNat ∧ execDrw x y n s = .fault (.memoryOutOfRange a)) ∨
    ((∀ r, r < n.toNat → s.i.toNat + r ≤ 0xFFF) ∧
      ((∃ p, (drwPixels x y n s).find? offGrid = some p ∧ execDrw x y n s = .fault (.drawOutOfRange p.1 p.2)) ∨
       ((drwPixels x y n s).find? offGrid = none ∧ execDrw x y n s = .next (drwState x y n s)))) := by
  unfold execDrw
  cases h : accessFault (baseAddr s) n.toNat with
  | some a => exact .inl ⟨a, accessFault_eq_some.1 h, rfl⟩
  | none =>
    refine .inr ⟨accessFault_eq_none.1 h, ?_⟩
    cases h2 : (drwPixels x y n s).find? offGrid with
    | some p => left; exact ⟨p, rfl, by simp only [drwPixels] at h2; simp [h2, raise]⟩
    | none => right; exact ⟨rfl, by simp only [drwPixels] at h2; simp [h2, drwState, drwPixels]⟩

/-- What drawing does to a pixel: the covered ones are inverted (R101). -/
theorem pixel_drwState {x y n : Nibble} {s : State} (hg : (drwPixels x y n s).find? offGrid = none) (k : Nat) :
    (Covers s x y n k → pixel (drwState x y n s) k = !pixel s k) ∧
    (¬ Covers s x y n k → pixel (drwState x y n s) k = pixel s k) := by
  have h := (foldl_plotPixel (drwPixels x y n s) s.fb false
    (nodup_pixelIndex (drwPixels_pairwise x y n s) hg)).1 k
  have hp : pixel (drwState x y n s) k = ((drwPixels x y n s).foldl plotPixel (s.fb, false)).1.getLsbD k := rfl
  rw [hp, h, covers_iff]
  refine ⟨fun hk => ?_, fun hk => ?_⟩
  · have hlt : k < 2048 := by
      obtain ⟨p, hm, rfl⟩ := List.mem_map.1 hk
      have := List.find?_eq_none.1 hg p hm
      rw [offGrid_eq_true] at this
      simp only [pixelIndex, Config.fbW]; omega
    simp [hk, hlt, pixel]
  · simp [hk, pixel]

/-- VF after drawing says whether some covered pixel was 1 (R101). -/
theorem readV_drwState (x y n : Nibble) (s : State) (z : Nibble) :
    readV (drwState x y n s) z =
      if z = VF then b2n (plotSprite s.fb (drwPixels x y n s)).2 else readV s z :=
  readV_writeV s VF z _

theorem drw_collision {x y n : Nibble} {s : State} (hg : (drwPixels x y n s).find? offGrid = none) :
    (plotSprite s.fb (drwPixels x y n s)).2 = true ↔ ∃ k, Covers s x y n k ∧ pixel s k = true := by
  rw [plotSprite, (foldl_plotPixel (drwPixels x y n s) s.fb false
    (nodup_pixelIndex (drwPixels_pairwise x y n s) hg)).2]
  simp only [Bool.false_eq_true, false_or, covers_iff, List.mem_map]
  constructor
  · rintro ⟨p, hp, h⟩; exact ⟨_, ⟨p, hp, rfl⟩, h⟩
  · rintro ⟨k, ⟨p, hp, rfl⟩, h⟩; exact ⟨p, hp, h⟩

/-- Everything `2nnn` can answer (R111). -/
theorem execCall_cases (nnn : Addr12) (s : State) :
    (∃ (k : Fin Config.stackDepth) (q : Fin (Config.stackDepth + 1)), k.val = s.sp.val ∧ q.val = s.sp.val + 1 ∧
      execCall nnn s =
        .next (jumpTo (addrImm nnn) { s with stack := s.stack.set k.val s.pc k.isLt, sp := q })) ∨
    (s.sp.val = 16 ∧ execCall nnn s = .fault (.stackOverflow 16)) := by
  unfold execCall
  split
  · next h => exact .inl ⟨⟨s.sp.val, h⟩, ⟨s.sp.val + 1, Nat.succ_lt_succ h⟩, rfl, rfl, rfl⟩
  · next h =>
    have h1 := s.sp.isLt
    simp only [Config.stackDepth] at h h1
    have h2 : s.sp.val = 16 := by omega
    exact .inr ⟨h2, by rw [spRegister_toNat, h2]; rfl⟩

/-- Everything `00EE` can answer (R112). -/
theorem execRet_cases (s : State) :
    (∃ (k : Fin Config.stackDepth) (q : Fin (Config.stackDepth + 1)), k.val + 1 = s.sp.val ∧ q.val = k.val ∧
      execRet s = .next (jumpTo (s.stack[k.val] + 2) { s with sp := q })) ∨
    (s.sp.val = 0 ∧ execRet s = .fault (.stackUnderflow 0)) := by
  unfold execRet
  have h1 := s.sp.isLt
  split
  · next h =>
    exact .inl ⟨⟨s.sp.val - 1, by omega⟩, ⟨s.sp.val - 1, by omega⟩, by simp; omega, rfl, rfl⟩
  · next h => exact .inr ⟨by omega, rfl⟩

/-! ### Widened operands as numbers (R74) -/

theorem addrImm_toNat (nnn : Addr12) : (addrImm nnn).toNat = nnn.toNat := by
  have := nnn.isLt
  simp [addrImm]; omega

theorem wordOfByte_toNat (b : Byte) : (wordOfByte b).toNat = b.toNat := by
  have := b.isLt
  simp [wordOfByte]; omega

theorem glyphAddr_toNat (b : Byte) : (glyphAddr b).toNat = 5 * b.toNat := by
  have := b.isLt
  simp [glyphAddr, wordOfByte_toNat]; omega

theorem b2n_toNat (c : Bool) : (b2n c).toNat = if c then 1 else 0 := by cases c <;> rfl

end Sys2Proof.Machine
end

