-- ==== Sys2Proof/Laws/Frame.lean ====
section
/-! SUPPORT. What each instruction may change when it completes, and the proof that it changes nothing else: the one
frame lemma that later proofs about single parts of the state cite (spec/10_state.md R21 to R34). -/

namespace Sys2Proof.Machine

/-- The parts of the state that an instruction may change when it completes, as its rule says; `pc` is among them
for every instruction. -/
def mayWrite (i : Instr) (s : State) : Part → Prop := fun p => p = .pc ∨
  match i with
  | .cls => p = .displayFlag ∨ ∃ k, k < 2048 ∧ p = .pixel k
  | .ret => p = .sp
  | .call _ => p = .sp ∨ ∃ k, k.val = s.sp.val ∧ p = .stackEntry k
  | .ldImm x _ | .addImm x _ | .ldReg x _ | .or x _ | .and x _ | .xor x _ | .ldVxDt x => p = .reg x
  | .addReg x _ | .sub x _ | .shr x _ | .subn x _ | .shl x _ => p = .reg x ∨ p = .reg VF
  | .ldI _ | .addI _ | .ldF _ => p = .index
  | .rnd x _ => p = .reg x ∨ p = .draws
  | .drw x y n => p = .displayFlag ∨ p = .reg VF ∨ ∃ k, p = .pixel k ∧ Covers s x y n k
  | .ldDtVx _ => p = .dt
  | .ldStVx _ => p = .st
  | .ldB _ => ∃ a, p = .byte a ∧ s.i.toNat ≤ a ∧ a < s.i.toNat + 3 ∧ a ≤ 0xFFF
  | .stRegs x => ∃ a, p = .byte a ∧ s.i.toNat ≤ a ∧ a < s.i.toNat + x.toNat ∧ a ≤ 0xFFF
  | .ldRegs x => ∃ k, p = .reg k ∧ k.toNat < x.toNat
  | _ => False

theorem pixel_big (s : State) {k : Nat} (h : 2048 ≤ k) : pixel s k = false := by
  simp only [pixel]; exact BitVec.getLsbD_of_ge _ _ h

/-- THE FRAME of every instruction: what it changes when it completes, its rule names. -/
theorem exec_frame (i : Instr) (s t : State) (h : exec i s = .next t) : KeepsAllBut (mayWrite i s) s t := by
  intro p hp
  cases i with
  | ldB x =>
    simp only [exec, execLdB] at h
    rcases withAccess_eq 3 s (advance (writeBytes s (baseAddr s) (decimalDigits (readV s x)))) with ⟨h1, hr⟩ | ⟨c, h1, -⟩
    · rw [h1] at h; cases h
      cases p <;> simp_all [mayWrite, Part.Same, readMem_writeBytes]
      next a =>
        intro ha
        have : ¬ (a < s.i.toNat + 3) := by
          intro h2; simp only [baseAddr] at ha; have := hp ha h2; have := hr (a - s.i.toNat) (by omega); omega
        rw [List.getElem?_eq_none (by simp [baseAddr]; omega)]; rfl
    · rw [h1] at h; cases h
  | stRegs x =>
    simp only [exec, execStRegs] at h
    rcases withAccess_eq x.toNat s (advance (writeBytes s (baseAddr s) (firstRegs s x.toNat))) with ⟨h1, hr⟩ | ⟨c, h1, -⟩
    · rw [h1] at h; cases h
      cases p <;> simp_all [mayWrite, Part.Same, readMem_writeBytes]
      next a =>
        intro ha
        have : ¬ (a < s.i.toNat + x.toNat) := by
          intro h2; simp only [baseAddr] at ha; have := hp ha h2; have := hr (a - s.i.toNat) (by omega); omega
        rw [List.getElem?_eq_none (by simp [baseAddr]; omega)]; rfl
    · rw [h1] at h; cases h
  | ldRegs x =>
    simp only [exec, execLdRegs] at h
    rcases withAccess_eq x.toNat s (advance (writeRegs s 0 (readBytes s (baseAddr s) x.toNat))) with ⟨h1, hr⟩ | ⟨c, h1, -⟩
    · rw [h1] at h; cases h
      cases p
      case reg z =>
        simp [mayWrite] at hp
        simp [Part.Same]
        rw [readV_writeRegs _ _ _ _ (by simp; omega)]
        simp [hp]
      all_goals
        obtain ⟨v, hv⟩ := writeRegs_eq (readBytes s (baseAddr s) x.toNat) s 0
        simp_all [mayWrite, Part.Same, readMem, pixel]
    · rw [h1] at h; cases h
  | drw x y n =>
    rcases execDrw_cases x y n s with ⟨a, -, h1⟩ | ⟨-, ⟨p, -, h1⟩ | ⟨hg, h1⟩⟩
    · simp only [exec, h1] at h; cases h
    · simp only [exec, h1] at h; cases h
    · simp only [exec, h1] at h; cases h
      cases p
      case reg z => simp [mayWrite] at hp; simp [Part.Same, readV_drwState, hp]
      case pixel k =>
        simp [mayWrite] at hp; exact (pixel_drwState hg k).2 hp
      all_goals first
       | rfl
       | simp_all [mayWrite]
  | call nnn =>
    simp only [exec] at h
    rcases execCall_cases nnn s with ⟨k, q, h1, h2, h3⟩ | ⟨-, h3⟩
    · rw [h3] at h; cases h
      cases p
      case stackEntry j =>
        simp [mayWrite] at hp
        simp [Part.Same]
        rw [Vector.getElem_set_ne]
        omega
      all_goals first
       | rfl
       | simp_all [mayWrite]
    · rw [h3] at h; cases h
  | ret =>
    simp only [exec] at h
    rcases execRet_cases s with ⟨k, q, h1, h2, h3⟩ | ⟨-, h3⟩
    · rw [h3] at h; cases h
      cases p <;> first
       | rfl
       | simp_all [mayWrite]
    · rw [h3] at h; cases h
  | skp x =>
    simp only [exec, execSkp] at h
    rcases withKey_eq x s (fun pressed => .next (skipIf pressed s)) with ⟨k, h1, h3⟩ | ⟨-, h3⟩
    · rw [h3] at h; cases h
      cases p <;> first
       | rfl
       | simp_all [mayWrite]
    · rw [h3] at h; cases h
  | sknp x =>
    simp only [exec, execSknp] at h
    rcases withKey_eq x s (fun pressed => .next (skipIf (!pressed) s)) with ⟨k, h1, h3⟩ | ⟨-, h3⟩
    · rw [h3] at h; cases h
      cases p <;> first
       | rfl
       | simp_all [mayWrite]
    · rw [h3] at h; cases h
  | wkey x =>
    simp only [exec, execWkey] at h
    cases h
    cases anyKey s <;> cases p <;> first
       | rfl
       | simp_all [mayWrite]
  | cls =>
    cases h
    cases p
    case pixel k =>
      simp [mayWrite] at hp
      have h1 := pixel_big s hp
      simp only [Part.Same, h1]
      exact pixel_big _ hp
    all_goals first
       | rfl
       | simp_all [mayWrite]
  | rnd x kk =>
    cases h
    cases p
    case reg z => simp [mayWrite] at hp; exact readV_writeV_of_ne s _ hp
    all_goals first
       | rfl
       | simp_all [mayWrite]
  | _ =>
    cases h
    cases p <;> first
      | rfl
      | simp_all [mayWrite, Part.Same, readV_writeV, readV_flagThenResult]

end Sys2Proof.Machine
end

