-- ==== Sys2Proof/Laws/PerInstr.lean ====
section
/-! SUPPORT. Facts about every instruction as syntax, one lemma per constructor. Family RowMatch: the word of an
instruction is selected by the row of the opcode map that bears the instruction's mnemonic
(spec/30_encoding.md R75, R76). -/

namespace Sys2Proof.Laws.RowMatch

/-- The encoding of `i` matches the row of its mnemonic. -/
def Statement (i : Instr) : Prop :=
  ∃ r ∈ opcodeMap, r.mnemonic = i.mnemonic ∧ encode i &&& r.mask = r.value

theorem cls : Statement .cls :=
  ⟨⟨"CLS", 0xFFFF, 0x00E0⟩, by decide, rfl, by decide⟩
theorem ret : Statement .ret :=
  ⟨⟨"RET", 0xFFFF, 0x00EE⟩, by decide, rfl, by decide⟩
theorem jp (nnn : Addr12) : Statement (.jp nnn) :=
  ⟨⟨"JP", 0xF000, 0x1000⟩, by decide, rfl, (mask_group _ 0x1).2 (by simp [encode])⟩
theorem call (nnn : Addr12) : Statement (.call nnn) :=
  ⟨⟨"CALL", 0xF000, 0x2000⟩, by decide, rfl, (mask_group _ 0x2).2 (by simp [encode])⟩
theorem seImm (x : Nibble) (kk : Byte) : Statement (.seImm x kk) :=
  ⟨⟨"SE_IMM", 0xF000, 0x3000⟩, by decide, rfl, (mask_group _ 0x3).2 (by simp [encode])⟩
theorem sneImm (x : Nibble) (kk : Byte) : Statement (.sneImm x kk) :=
  ⟨⟨"SNE_IMM", 0xF000, 0x4000⟩, by decide, rfl, (mask_group _ 0x4).2 (by simp [encode])⟩
theorem seReg (x : Nibble) (y : Nibble) : Statement (.seReg x y) :=
  ⟨⟨"SE_REG", 0xF00F, 0x5000⟩, by decide, rfl, (mask_groupN _ 0x5 0x0).2 (by simp [encode])⟩
theorem ldImm (x : Nibble) (kk : Byte) : Statement (.ldImm x kk) :=
  ⟨⟨"LD_IMM", 0xF000, 0x6000⟩, by decide, rfl, (mask_group _ 0x6).2 (by simp [encode])⟩
theorem addImm (x : Nibble) (kk : Byte) : Statement (.addImm x kk) :=
  ⟨⟨"ADD_IMM", 0xF000, 0x7000⟩, by decide, rfl, (mask_group _ 0x7).2 (by simp [encode])⟩
theorem ldReg (x : Nibble) (y : Nibble) : Statement (.ldReg x y) :=
  ⟨⟨"LD_REG", 0xF00F, 0x8000⟩, by decide, rfl, (mask_groupN _ 0x8 0x0).2 (by simp [encode])⟩
theorem or (x : Nibble) (y : Nibble) : Statement (.or x y) :=
  ⟨⟨"OR", 0xF00F, 0x8001⟩, by decide, rfl, (mask_groupN _ 0x8 0x1).2 (by simp [encode])⟩
theorem and (x : Nibble) (y : Nibble) : Statement (.and x y) :=
  ⟨⟨"AND", 0xF00F, 0x8002⟩, by decide, rfl, (mask_groupN _ 0x8 0x2).2 (by simp [encode])⟩
theorem xor (x : Nibble) (y : Nibble) : Statement (.xor x y) :=
  ⟨⟨"XOR", 0xF00F, 0x8003⟩, by decide, rfl, (mask_groupN _ 0x8 0x3).2 (by simp [encode])⟩
theorem addReg (x : Nibble) (y : Nibble) : Statement (.addReg x y) :=
  ⟨⟨"ADD_REG", 0xF00F, 0x8004⟩, by decide, rfl, (mask_groupN _ 0x8 0x4).2 (by simp [encode])⟩
theorem sub (x : Nibble) (y : Nibble) : Statement (.sub x y) :=
  ⟨⟨"SUB", 0xF00F, 0x8005⟩, by decide, rfl, (mask_groupN _ 0x8 0x5).2 (by simp [encode])⟩
theorem shr (x : Nibble) (y : Nibble) : Statement (.shr x y) :=
  ⟨⟨"SHR", 0xF00F, 0x8006⟩, by decide, rfl, (mask_groupN _ 0x8 0x6).2 (by simp [encode])⟩
theorem subn (x : Nibble) (y : Nibble) : Statement (.subn x y) :=
  ⟨⟨"SUBN", 0xF00F, 0x8007⟩, by decide, rfl, (mask_groupN _ 0x8 0x7).2 (by simp [encode])⟩
theorem shl (x : Nibble) (y : Nibble) : Statement (.shl x y) :=
  ⟨⟨"SHL", 0xF00F, 0x800E⟩, by decide, rfl, (mask_groupN _ 0x8 0xE).2 (by simp [encode])⟩
theorem sneReg (x : Nibble) (y : Nibble) : Statement (.sneReg x y) :=
  ⟨⟨"SNE_REG", 0xF00F, 0x9000⟩, by decide, rfl, (mask_groupN _ 0x9 0x0).2 (by simp [encode])⟩
theorem ldI (nnn : Addr12) : Statement (.ldI nnn) :=
  ⟨⟨"LD_I", 0xF000, 0xA000⟩, by decide, rfl, (mask_group _ 0xA).2 (by simp [encode])⟩
theorem jpV0 (nnn : Addr12) : Statement (.jpV0 nnn) :=
  ⟨⟨"JP_V0", 0xF000, 0xB000⟩, by decide, rfl, (mask_group _ 0xB).2 (by simp [encode])⟩
theorem rnd (x : Nibble) (kk : Byte) : Statement (.rnd x kk) :=
  ⟨⟨"RND", 0xF000, 0xC000⟩, by decide, rfl, (mask_group _ 0xC).2 (by simp [encode])⟩
theorem drw (x : Nibble) (y : Nibble) (n : Nibble) : Statement (.drw x y n) :=
  ⟨⟨"DRW", 0xF000, 0xD000⟩, by decide, rfl, (mask_group _ 0xD).2 (by simp [encode])⟩
theorem skp (x : Nibble) : Statement (.skp x) :=
  ⟨⟨"SKP", 0xF0FF, 0xE09E⟩, by decide, rfl, (mask_groupKK _ 0xE 0x9E).2 (by simp [encode])⟩
theorem sknp (x : Nibble) : Statement (.sknp x) :=
  ⟨⟨"SKNP", 0xF0FF, 0xE0A1⟩, by decide, rfl, (mask_groupKK _ 0xE 0xA1).2 (by simp [encode])⟩
theorem ldVxDt (x : Nibble) : Statement (.ldVxDt x) :=
  ⟨⟨"LD_VX_DT", 0xF0FF, 0xF007⟩, by decide, rfl, (mask_groupKK _ 0xF 0x07).2 (by simp [encode])⟩
theorem wkey (x : Nibble) : Statement (.wkey x) :=
  ⟨⟨"WKEY", 0xF0FF, 0xF00A⟩, by decide, rfl, (mask_groupKK _ 0xF 0x0A).2 (by simp [encode])⟩
theorem ldDtVx (x : Nibble) : Statement (.ldDtVx x) :=
  ⟨⟨"LD_DT_VX", 0xF0FF, 0xF015⟩, by decide, rfl, (mask_groupKK _ 0xF 0x15).2 (by simp [encode])⟩
theorem ldStVx (x : Nibble) : Statement (.ldStVx x) :=
  ⟨⟨"LD_ST_VX", 0xF0FF, 0xF018⟩, by decide, rfl, (mask_groupKK _ 0xF 0x18).2 (by simp [encode])⟩
theorem addI (x : Nibble) : Statement (.addI x) :=
  ⟨⟨"ADD_I", 0xF0FF, 0xF01E⟩, by decide, rfl, (mask_groupKK _ 0xF 0x1E).2 (by simp [encode])⟩
theorem ldF (x : Nibble) : Statement (.ldF x) :=
  ⟨⟨"LD_F", 0xF0FF, 0xF029⟩, by decide, rfl, (mask_groupKK _ 0xF 0x29).2 (by simp [encode])⟩
theorem ldB (x : Nibble) : Statement (.ldB x) :=
  ⟨⟨"LD_B", 0xF0FF, 0xF033⟩, by decide, rfl, (mask_groupKK _ 0xF 0x33).2 (by simp [encode])⟩
theorem stRegs (x : Nibble) : Statement (.stRegs x) :=
  ⟨⟨"ST_REGS", 0xF0FF, 0xF055⟩, by decide, rfl, (mask_groupKK _ 0xF 0x55).2 (by simp [encode])⟩
theorem ldRegs (x : Nibble) : Statement (.ldRegs x) :=
  ⟨⟨"LD_REGS", 0xF0FF, 0xF065⟩, by decide, rfl, (mask_groupKK _ 0xF 0x65).2 (by simp [encode])⟩

end Sys2Proof.Laws.RowMatch
end

