-- ==== Sys2Proof/Tests/Slice0.lean ====
section
/-! SUPPORT. The model's own tests: the decoding of each row's word written out from opcode_table.json, small steps
whose expected results are the tables of spec/95_test_vectors.md, the smoke test of WellFormed, and for each statement
with hypotheses a concrete state and operands that meet them. -/

open Sys2Proof Sys2Proof.Machine

namespace Sys2Proof.Tests

/-! ### WellFormed -/

/-- 70 R243: a ROM of 3584 bytes fits and one of 3585 does not. -/
theorem test_rom_that_fits : romFits (List.replicate 3584 0) := by rw [romFits, List.length_replicate]
theorem test_rom_too_long : ¬ romFits (List.replicate 3585 0) := by rw [romFits, List.length_replicate]; decide

/-- 30 R79: `SHR V2` is written with y = 0; the word 0x8236 is no form the assembler writes. -/
theorem test_assembler_form : (Instr.shr 0x2 0x0).assemblerForm = true ∧ (Instr.shr 0x2 0x3).assemblerForm = false ∧
    (Instr.shl 0x2 0x3).assemblerForm = false := by decide

/-- The cell lists that are no canonical memory: out of order, twice the same address, an address that does not exist,
a cell that says what an unlisted address reads as. -/
theorem test_memory_ill_formed : Memory.wf defaultFont [(0x301, 1), (0x300, 1)] = false ∧
    Memory.wf defaultFont [(0x300, 1), (0x300, 2)] = false ∧ Memory.wf defaultFont [(0x1000, 1)] = false ∧
    Memory.wf defaultFont [(0x300, 0)] = false ∧ Memory.wf defaultFont [(0x000, 0xF0)] = false := by decide

/-- 00 R5: the parameters that its table gives in terms of each other, and the range of sp in `SP_BITS` bits. -/
theorem test_parameters : Config.memSize = 4096 ∧ Config.fontSize = 80 ∧ Config.memSize = 2 ^ Config.addrBits ∧
    Config.romMax = Config.memSize - Config.progBase ∧ Config.fetchHi + Config.instrBytes = Config.memSize ∧
    Config.stackDepth < 2 ^ Config.spBits ∧ 2 ^ (Config.spBits - 1) ≤ Config.stackDepth ∧
    spRegister { State.reset with sp := 16 } = 0b10000#5 := by decide

/-! ### Decoding: one word per row, the "encoding" of opcode_table.json with x = 1010, y = 0101, n = 1101,
kk = 10011100, nnn = 101100111100 -/


theorem test_decode_cls : decodeWord 0b0000000011100000#16 = .ok .cls := by decide
theorem test_decode_ret : decodeWord 0b0000000011101110#16 = .ok .ret := by decide
theorem test_decode_jp : decodeWord 0b0001101100111100#16 = .ok (.jp 0xB3C) := by decide
theorem test_decode_call : decodeWord 0b0010101100111100#16 = .ok (.call 0xB3C) := by decide
theorem test_decode_seImm : decodeWord 0b0011101010011100#16 = .ok (.seImm 0xA 0x9C) := by decide
theorem test_decode_sneImm : decodeWord 0b0100101010011100#16 = .ok (.sneImm 0xA 0x9C) := by decide
theorem test_decode_seReg : decodeWord 0b0101101001010000#16 = .ok (.seReg 0xA 0x5) := by decide
theorem test_decode_ldImm : decodeWord 0b0110101010011100#16 = .ok (.ldImm 0xA 0x9C) := by decide
theorem test_decode_addImm : decodeWord 0b0111101010011100#16 = .ok (.addImm 0xA 0x9C) := by decide
theorem test_decode_ldReg : decodeWord 0b1000101001010000#16 = .ok (.ldReg 0xA 0x5) := by decide
theorem test_decode_or : decodeWord 0b1000101001010001#16 = .ok (.or 0xA 0x5) := by decide
theorem test_decode_and : decodeWord 0b1000101001010010#16 = .ok (.and 0xA 0x5) := by decide
theorem test_decode_xor : decodeWord 0b1000101001010011#16 = .ok (.xor 0xA 0x5) := by decide
theorem test_decode_addReg : decodeWord 0b1000101001010100#16 = .ok (.addReg 0xA 0x5) := by decide
theorem test_decode_sub : decodeWord 0b1000101001010101#16 = .ok (.sub 0xA 0x5) := by decide
theorem test_decode_shr : decodeWord 0b1000101001010110#16 = .ok (.shr 0xA 0x5) := by decide
theorem test_decode_subn : decodeWord 0b1000101001010111#16 = .ok (.subn 0xA 0x5) := by decide
theorem test_decode_shl : decodeWord 0b1000101001011110#16 = .ok (.shl 0xA 0x5) := by decide
theorem test_decode_sneReg : decodeWord 0b1001101001010000#16 = .ok (.sneReg 0xA 0x5) := by decide
theorem test_decode_ldI : decodeWord 0b1010101100111100#16 = .ok (.ldI 0xB3C) := by decide
theorem test_decode_jpV0 : decodeWord 0b1011101100111100#16 = .ok (.jpV0 0xB3C) := by decide
theorem test_decode_rnd : decodeWord 0b1100101010011100#16 = .ok (.rnd 0xA 0x9C) := by decide
theorem test_decode_drw : decodeWord 0b1101101001011101#16 = .ok (.drw 0xA 0x5 0xD) := by decide
theorem test_decode_skp : decodeWord 0b1110101010011110#16 = .ok (.skp 0xA) := by decide
theorem test_decode_sknp : decodeWord 0b1110101010100001#16 = .ok (.sknp 0xA) := by decide
theorem test_decode_ldVxDt : decodeWord 0b1111101000000111#16 = .ok (.ldVxDt 0xA) := by decide
theorem test_decode_wkey : decodeWord 0b1111101000001010#16 = .ok (.wkey 0xA) := by decide
theorem test_decode_ldDtVx : decodeWord 0b1111101000010101#16 = .ok (.ldDtVx 0xA) := by decide
theorem test_decode_ldStVx : decodeWord 0b1111101000011000#16 = .ok (.ldStVx 0xA) := by decide
theorem test_decode_addI : decodeWord 0b1111101000011110#16 = .ok (.addI 0xA) := by decide
theorem test_decode_ldF : decodeWord 0b1111101000101001#16 = .ok (.ldF 0xA) := by decide
theorem test_decode_ldB : decodeWord 0b1111101000110011#16 = .ok (.ldB 0xA) := by decide
theorem test_decode_stRegs : decodeWord 0b1111101001010101#16 = .ok (.stRegs 0xA) := by decide
theorem test_decode_ldRegs : decodeWord 0b1111101001100101#16 = .ok (.ldRegs 0xA) := by decide

/-- 20 table J: big-endian fetch; 30 R71: one byte is no instruction; 30 R77: unknown words. -/
theorem test_decode_bytes : decodeBytes [0x12, 0x34, 0x56] = .ok (.jp 0x234, [0x56]) ∧
    decodeBytes [0x12] = .error .truncated ∧ decodeWord 0x01E0 = .error (.unknownWord 0x01E0) ∧
    decodeWord 0x8018 = .error (.unknownWord 0x8018) ∧ decodeWord 0x9012 = .error (.unknownWord 0x9012) ∧
    decodeWord 0xE19F = .error (.unknownWord 0xE19F) ∧ decodeWord 0xF075 = .error (.unknownWord 0xF075) := by decide

/-- 30 R76: the 34 rows are pairwise disjoint: two rows differ on a bit that both masks fix. -/
theorem test_rows_disjoint : opcodeMap.length = 34 ∧
    opcodeMap.Pairwise (fun r q => r.value &&& (r.mask &&& q.mask) ≠ q.value &&& (r.mask &&& q.mask)) := by decide

/-- The host's two functions on one word. -/
theorem test_host_word : decodeTableWord 16 0x1234 = some (.jp 0x234) ∧ decodeTableWord 16 0x0000 = none ∧
    fetchWord (State.reset.withFetchWord 16 0x1234) = 0x1234 := by decide

/-! ### Steps: the tables of 95_test_vectors.md -/

/-- The reset state, changed by `f`, with a word at pc. -/
def at16 (w : Nat) (f : State → State) : State := (f State.reset).withFetchWord 16 w

/-- The next state of a step, and the diagnostic of one. -/
def after (s : State) : Option State := match step s with | .next t => some t | .fault _ => none | .refused _ => none
def diag (s : State) : Option Fault := match step s with | .fault d => some d | .next _ => none | .refused _ => none

/-- Registers of a test's start state. -/
def V0 (b : Byte) (s : State) : State := writeV s 0 b
def V1 (b : Byte) (s : State) : State := writeV s 1 b
def VFis (b : Byte) (s : State) : State := writeV s VF b
def Iis (a : Word) (s : State) : State := writeI s a

/-! Table I, display. -/
theorem test_cls :
    (after (at16 0x00E0 (fun s => { s with fb := BitVec.allOnes _ }))).map (fun t => (t.fb, t.displayFlag, t.pc)) =
    some (0, true, 0x202) := by decide +kernel
theorem test_drw_edge_and_collision :
    (after (at16 0xD015 (fun s => V0 60 (V1 27 s)))).map (fun t =>
      ([1788, 1791, 1852, 1853, 1855, 2044, 2047].map (pixel t), readV t VF, t.pc)) =
      some ([true, true, true, false, true, true, true], 0, 0x202) ∧
    (after (at16 0xD011 (fun s => writeMem (VFis 7 (Iis 0x300 { s with fb := BitVec.twoPow _ 1 })) 0x300 0xC0))).map
      (fun t => (t.fb, readV t VF, t.displayFlag)) = some (BitVec.twoPow _ 0, 1, true) := by decide +kernel
theorem test_drw_diagnostics :
    diag (at16 0xD015 (fun s => V0 61 (V1 27 s))) = some (.drawOutOfRange 64 27) ∧
    diag (at16 0xD015 (fun s => Iis 0xFFD (V0 200 s))) = some (.memoryOutOfRange 0x1000) := by decide
/-! Table D, control flow. -/
theorem test_jp_to_itself : (after (at16 0x1200 id)).map (fun t => t.pc) =
    some 0x200 := by decide
theorem test_jp_odd_target : (after (at16 0x1201 id)).map (fun t => t.pc) =
    some 0x201 := by decide
theorem test_call_sixteenth : (after (at16 0x2300 (fun s => { s with sp := 15 }))).map (fun t => (t.stack[15], t.sp.val, t.pc)) =
    some (0x200, 16, 0x300) := by decide
theorem test_call_overflow : diag (at16 0x2300 (fun s => { s with sp := 16 })) = some (.stackOverflow 16) := by decide
theorem test_ret : (after (at16 0x00EE (fun s => { s with sp := 1, stack := s.stack.set 0 0x202 }))).map (fun t => (t.sp.val, t.pc, t.stack[0])) =
    some (0, 0x204, 0x202) := by decide
theorem test_ret_underflow : diag (at16 0x00EE id) = some (.stackUnderflow 0) := by decide
theorem test_jpV0_no_mask : (after (at16 0xBFFF (V0 0xFF))).map (fun t => t.pc) =
    some 0x10FE := by decide
/-! Table C, skips. -/
theorem test_seImm_taken : (after (at16 0x3012 (V0 0x12))).map (fun t => t.pc) =
    some 0x204 := by decide
theorem test_sneImm_not_taken : (after (at16 0x4012 (V0 0x12))).map (fun t => t.pc) =
    some 0x202 := by decide
theorem test_seReg_not_taken : (after (at16 0x5010 (fun s => V0 1 (V1 2 s)))).map (fun t => t.pc) =
    some 0x202 := by decide
theorem test_sneReg_taken : (after (at16 0x9010 (fun s => V0 1 (V1 2 s)))).map (fun t => t.pc) =
    some 0x204 := by decide
/-! Table B, immediates. -/
theorem test_ldImm_VF : (after (at16 0x6F12 id)).map (fun t => (readV t VF, t.pc)) =
    some (0x12, 0x202) := by decide
theorem test_addImm_wraps : (after (at16 0x7001 (fun s => V0 0xFF (VFis 9 s)))).map (fun t => (readV t 0, readV t VF)) =
    some (0x00, 9) := by decide
/-! Table A, register-register. -/
theorem test_ldReg : (after (at16 0x8F10 (V1 0x09))).map (fun t => (readV t VF, readV t 1)) =
    some (0x09, 0x09) := by decide
theorem test_or_keeps_VF : (after (at16 0x8011 (fun s => V0 0xF0 (V1 0x0F (VFis 1 s))))).map (fun t => (readV t 0, readV t VF)) =
    some (0xFF, 1) := by decide
theorem test_and : (after (at16 0x8012 (fun s => V0 0xF0 (V1 0x3C s)))).map (fun t => readV t 0) =
    some 0x30 := by decide
theorem test_xor : (after (at16 0x8013 (fun s => V0 0xF0 (V1 0x3C s)))).map (fun t => readV t 0) =
    some 0xCC := by decide
theorem test_addReg_y_is_F : (after (at16 0x80F4 (fun s => V0 0x10 (VFis 0x02 s)))).map (fun t => (readV t 0, readV t VF)) =
    some (0x10, 0) := by decide
theorem test_addReg_x_is_F : (after (at16 0x8F14 (fun s => VFis 0xFF (V1 0x03 s)))).map (fun t => readV t VF) =
    some 0x04 := by decide
theorem test_sub_borrow : (after (at16 0x8015 (fun s => V0 0x10 (V1 0x20 s)))).map (fun t => (readV t 0, readV t VF)) =
    some (0xF0, 0) := by decide
theorem test_sub_x_is_F : (after (at16 0x8F15 (fun s => VFis 0x05 (V1 0x03 s)))).map (fun t => readV t VF) =
    some 0xFE := by decide
theorem test_shr_does_not_use_Vy : (after (at16 0x8016 (fun s => V0 0xFF (V1 0x55 s)))).map (fun t => (readV t 0, readV t VF, readV t 1)) =
    some (0x7F, 1, 0x55) := by decide
theorem test_shr_x_is_F : (after (at16 0x8F16 (VFis 0xFF))).map (fun t => readV t VF) =
    some 0x00 := by decide
theorem test_subn_y_is_F : (after (at16 0x80F7 (fun s => V0 0x09 (VFis 0x07 s)))).map (fun t => (readV t 0, readV t VF)) =
    some (0xF7, 0) := by decide
theorem test_subn_equal_gives_1 : (after (at16 0x8017 (fun s => V0 0x05 (V1 0x05 s)))).map (fun t => (readV t 0, readV t VF)) =
    some (0x00, 1) := by decide
theorem test_shl : (after (at16 0x801E (V0 0x7F))).map (fun t => (readV t 0, readV t VF)) =
    some (0xFE, 0) := by decide
theorem test_shl_x_is_F : (after (at16 0x8F1E (VFis 0xC0))).map (fun t => readV t VF) =
    some 0x02 := by decide
/-! Table E, index and random. -/
theorem test_ldI : (after (at16 0xAFFF id)).map (fun t => (t.i, t.pc)) =
    some (0x0FFF, 0x202) := by decide
theorem test_addI_passes_FFF : (after (at16 0xF01E (fun s => V0 0x05 (Iis 0x0FFE s)))).map (fun t => (t.i, readV t VF)) =
    some (0x1003, 0) := by decide
theorem test_addI_wraps : (after (at16 0xF01E (fun s => V0 0x01 (Iis 0xFFFF s)))).map (fun t => t.i) =
    some 0x0000 := by decide
theorem test_ldF_no_mask : (after (at16 0xF029 (V0 0xFF))).map (fun t => t.i) =
    some 0x04FB := by decide
/-- Table E: C30F gives V3 = rnd AND 0F for the byte of this draw, whatever it is. -/
theorem test_rnd : (after (at16 0xC30F id)).map (fun t => (readV t 3, t.draws, t.pc)) =
    some (Config.rndByte 0 &&& 0x0F, 1, 0x202) := rfl
/-! Table F, keypad. -/
theorem test_skp_taken : (after (at16 0xE19E (fun s => V1 5 (setKey 5 true s)))).map (fun t => t.pc) =
    some 0x204 := by decide
theorem test_skp_index : diag (at16 0xE19E (V1 0x10)) = some (.keyIndexOutOfRange 0x10) := by decide
theorem test_sknp_not_taken : (after (at16 0xE1A1 (fun s => V1 5 (setKey 5 true s)))).map (fun t => t.pc) =
    some 0x202 := by decide
theorem test_sknp_index : diag (at16 0xE1A1 (fun s => V1 0xFF (setKey 15 true s))) = some (.keyIndexOutOfRange 0xFF) := by decide
theorem test_wkey_waits : (after (at16 0xF10A (V1 9))).map (fun t => (t.pc, readV t 1)) =
    some (0x200, 9) := by decide
theorem test_wkey_does_not_store : (after (at16 0xF10A (fun s => V1 9 (setKey 7 true s)))).map (fun t => (t.pc, readV t 1)) =
    some (0x202, 9) := by decide
/-! Table G, timers. -/
theorem test_ldVxDt : (after (at16 0xF107 (fun s => { s with dt := 0x2A }))).map (fun t => (readV t 1, t.dt)) =
    some (0x2A, 0x2A) := by decide
theorem test_ldDtVx : (after (at16 0xF015 (fun s => V0 0 { s with dt := 9 }))).map (fun t => (t.dt, t.pc)) =
    some (0, 0x202) := by decide
theorem test_ldStVx : (after (at16 0xF118 (V1 0x10))).map (fun t => (t.st, t.soundFlag)) =
    some (0x10, false) := by decide
theorem test_tick_last_sounds : (tickTimers { State.reset with st := 1 }).st = 0 ∧
    (tickTimers { State.reset with st := 1 }).soundFlag = true ∧ tickTimers State.reset = State.reset := by decide +kernel
theorem test_ticks_stop_at_zero : (ticks 5 { State.reset with dt := 3 }).dt = 0 := by decide
/-! Table H, memory instructions. -/
theorem test_ldB_highest_I : (after (at16 0xF033 (fun s => V0 123 (Iis 0xFFD s)))).map (fun t => (readMem t 0xFFD, readMem t 0xFFE, readMem t 0xFFF)) =
    some (1, 2, 3) := by decide
theorem test_ldB_no_partial_write : diag (at16 0xF033 (fun s => V0 123 (Iis 0xFFE s))) = some (.memoryOutOfRange 0x1000) := by decide
theorem test_stRegs_count_is_x : (after (at16 0xF255 (fun s => V0 0x11 (V1 0x22 (writeV (Iis 0x400 s) 2 0x33))))).map (fun t => (readMem t 0x400, readMem t 0x401, readMem t 0x402, t.i)) =
    some (0x11, 0x22, 0x00, 0x400) := by decide
theorem test_stRegs_none_at_top : (after (at16 0xF055 (fun s => V0 0x11 (Iis 0xFFFF s)))).map (fun t => (t.mem.length, t.pc)) =
    some (2, 0x202) := by decide
theorem test_ldRegs_default_font : (after (at16 0xFF65 id)).map (fun t => (readV t 0, readV t 5, readV t 0xE, readV t VF)) =
    some (0xF0, 0x20, 0xF0, 0) := by decide
theorem test_ldRegs_out_of_range : diag (at16 0xF265 (Iis 0xFFF)) = some (.memoryOutOfRange 0x1000) := by decide
/-! Tables J, K, L: fetch, host operations, priority. -/
theorem test_fetch_bounds : diag { State.reset with pc := 0xFFF } = some (.fetchOutOfRange 0x0FFF) ∧
    diag { State.reset with pc := 0x1FF } = some (.fetchOutOfRange 0x01FF) ∧
    (after (at16 0x6001 (fun s => { s with pc := 0xFFE }))).map (fun t => (readV t 0, t.pc)) = some (1, 0x1000) ∧
    (after (at16 0x602A (fun s => { s with pc := 0x201 }))).map (fun t => (readV t 0, t.pc)) = some (0x2A, 0x203) := by
  decide
theorem test_no_program : diag State.reset = some (.unknownInstruction 0x0000) := by decide
theorem test_fetch_before_decode :
    diag (writeBytes { State.reset with pc := 0x100 } 0x100 [0xFF, 0xFF]) = some (.fetchOutOfRange 0x0100) := by decide
theorem test_load_keeps_pc : (loadProgram [0x12, 0x00] { V0 7 State.reset with pc := 0x2F0 }).2 = .ok ∧
    (loadProgram [0x12, 0x00] { V0 7 State.reset with pc := 0x2F0 }).1.pc = 0x2F0 ∧
    readMem (loadProgram [0x12, 0x00] State.reset).1 0x200 = 0x12 := by decide
/-- 60 R203: the codes. -/
theorem test_codes : [Fault.unknownInstruction 0, .fetchOutOfRange 0, .memoryOutOfRange 0x1000, .stackOverflow 16,
    .stackUnderflow 0, .drawOutOfRange 64 0, .keyIndexOutOfRange 16].map Fault.code = [1, 2, 3, 4, 5, 6, 7] := by decide
/-- Program P6: `CALL 0x200` calling itself; after a failing step the flags are cleared and nothing else moved. -/
theorem test_report_of_a_failing_step :
    stepReport (at16 0x2200 (fun s => { s with sp := 16, soundFlag := true })) =
      (at16 0x2200 (fun s => { s with sp := 16 }), some (.stackOverflow 16)) := by decide +kernel

/-! ### Witnesses: for each statement with hypotheses, a concrete state and operands that meet them all -/

theorem fetches_by {s : State} {i : Instr} (h : fetchable s.pc = true ∧ decodeWord (fetchWord s) = .ok i) :
    FetchesInstr s i := fetchesInstr_iff.2 h

/-- A state that runs one instruction to a next state with a property. -/
def Runs (s : State) (i : Instr) (p : State → State → Bool) : Prop :=
  FetchesInstr s i ∧ ∃ t, step s = .next t ∧ p s t = true

theorem runs_by {s : State} {i : Instr} {p : State → State → Bool}
    (h : (fetchable s.pc = true ∧ decodeWord (fetchWord s) = .ok i) ∧ (after s).any (p s) = true) : Runs s i p := by
  refine ⟨fetches_by h.1, ?_⟩
  have h2 := h.2
  unfold after at h2
  cases hs : step s with
  | next t => rw [hs] at h2; exact ⟨t, rfl, h2⟩
  | fault d => rw [hs] at h2; exact absurd h2 (by simp)
  | refused r => rw [hs] at h2; exact absurd h2 (by simp)

theorem fault_by {s : State} {d : Fault} (h : diag s = some d) : step s = .fault d := by
  unfold diag at h
  cases hs : step s with
  | next t => rw [hs] at h; exact absurd h (by simp)
  | fault e => rw [hs] at h; rw [Option.some.inj h]
  | refused r => rw [hs] at h; exact absurd h (by simp)

theorem witness_EncodeOfDecodeIsTheWord : decodeWord 0x8236 = .ok (.shr 0x2 0x3) := by decide
theorem witness_RowMatchesExactlyItsInstruction : (⟨"JP", 0xF000, 0x1000⟩ : OpcodeRow) ∈ opcodeMap ∧
    (0x1FFF : Word) &&& 0xF000 = 0x1000 := by decide
theorem witness_StepRunsTheDecodedInstruction :
    let s := at16 0x1234 id; let u := at16 0x6001 (fun s => { s with pc := 0xFFE })
    (0x200 ≤ s.pc.toNat ∧ s.pc.toNat ≤ 0xFFE ∧
      decodeWord (readMem s s.pc.toNat ++ readMem s (s.pc.toNat + 1)) = .ok (.jp 0x234)) ∧
    (0x200 ≤ u.pc.toNat ∧ u.pc.toNat ≤ 0xFFE ∧
      decodeWord (readMem u u.pc.toNat ++ readMem u (u.pc.toNat + 1)) = .ok (.ldImm 0 1)) := by decide
theorem witness_DiagnosticLeavesTheStateAndRepeats :
    step (at16 0x2200 (fun s => { s with sp := 16, soundFlag := true, displayFlag := true })) =
      .fault (.stackOverflow 16) := fault_by (by decide)
theorem witness_OutputFlagsAfterAStep :
    Runs (at16 0x00E0 id) .cls (fun _ t => t.displayFlag) ∧
    Runs (at16 0xD010 id) (.drw 0 1 0) (fun _ t => t.displayFlag) ∧
    Runs (at16 0x6001 (fun s => { s with displayFlag := true })) (.ldImm 0 1) (fun _ t => !t.displayFlag) :=
  ⟨runs_by (by decide), runs_by (by decide), runs_by (by decide)⟩
theorem witness_StepMovesTimersOnlyByTheirLoads :
    Runs (at16 0xF015 (V0 0xFF)) (.ldDtVx 0) (fun s t => t.dt ≠ s.dt) ∧
    Runs (at16 0xFF18 (VFis 1)) (.ldStVx VF) (fun s t => t.st ≠ s.st) :=
  ⟨runs_by (by decide), runs_by (by decide)⟩
theorem witness_StepNeverWritesItsInputs : Runs (at16 0xC300 id) (.rnd 3 0) (fun s t => t.draws ≠ s.draws) :=
  runs_by ⟨by decide, rfl⟩
theorem witness_StackMovesOnlyByCallAndReturn :
    Runs (at16 0x2300 id) (.call 0x300) (fun s t => t.sp ≠ s.sp && t.stack[0] ≠ s.stack[0]) ∧
    Runs (at16 0x2300 (fun s => { s with sp := 15 })) (.call 0x300) (fun s t => t.sp ≠ s.sp && t.stack[15] ≠ s.stack[15]) ∧
    Runs (at16 0x00EE (fun s => { s with sp := 16 })) .ret (fun s t => t.sp ≠ s.sp) :=
  ⟨runs_by (by decide), runs_by (by decide), runs_by (by decide)⟩
theorem witness_MemoryIsWrittenOnlyByItsStores :
    Runs (at16 0xF033 (fun s => V0 123 (Iis 0xFFD s))) (.ldB 0) (fun s t => readMem t 0xFFF ≠ readMem s 0xFFF) ∧
    Runs (at16 0xF155 (fun s => V0 1 (Iis 0xFFF s))) (.stRegs 1) (fun s t => readMem t 0xFFF ≠ readMem s 0xFFF) ∧
    Runs (at16 0xF155 (fun s => V0 1 (Iis 0x000 s))) (.stRegs 1) (fun s t => readMem t 0x000 ≠ readMem s 0x000) :=
  ⟨runs_by (by decide), runs_by (by decide), runs_by (by decide)⟩
theorem witness_FramebufferChangesOnlyByDisplayInstructions :
    Runs (at16 0x00E0 (fun s => { s with fb := BitVec.allOnes _ })) .cls (fun s t => pixel t 2047 ≠ pixel s 2047) ∧
    Runs (at16 0xD011 (fun s => V0 56 (V1 31 s))) (.drw 0 1 1) (fun s t => pixel t 2043 ≠ pixel s 2043) :=
  ⟨runs_by (by decide +kernel), runs_by (by decide +kernel)⟩
theorem witness_IndexIsWrittenOnlyByItsInstructions :
    Runs (at16 0xAFFF id) (.ldI 0xFFF) (fun s t => t.i ≠ s.i) ∧
    Runs (at16 0xF01E (fun s => V0 1 (Iis 0xFFF s))) (.addI 0)
      (fun s t => t.i ≠ s.i && s.i.toNat ≤ 0xFFF && 0xFFF < t.i.toNat) ∧
    Runs (at16 0xF029 (V0 0xFF)) (.ldF 0) (fun s t => t.i ≠ s.i) :=
  ⟨runs_by (by decide), runs_by (by decide), runs_by (by decide)⟩
theorem witness_VFIsWrittenOnlyAsFlagOrDestination :
    Runs (at16 0x801E (V0 0x80)) (.shl 0 1) (fun s t => readV t VF ≠ readV s VF) ∧
    Runs (at16 0xD010 (VFis 7)) (.drw 0 1 0) (fun s t => readV t VF ≠ readV s VF) ∧
    Runs (at16 0x6F01 id) (.ldImm VF 1) (fun s t => readV t VF ≠ readV s VF) ∧
    Runs (at16 0x8F11 (V1 1)) (.or VF 1) (fun s t => readV t VF ≠ readV s VF) ∧
    Runs (at16 0xFF07 (fun s => { s with dt := 1 })) (.ldVxDt VF) (fun s t => readV t VF ≠ readV s VF) ∧
    Runs (at16 0xFF65 (VFis 1)) (.ldRegs VF) (fun s t => readV t VF = readV s VF) :=
  ⟨runs_by (by decide), runs_by (by decide), runs_by (by decide), runs_by (by decide), runs_by (by decide),
    runs_by (by decide)⟩
theorem witness_StepLeavesPcInOneOfTheListedWays :
    Runs (at16 0x3000 (fun s => { s with pc := 0xFFE })) (.seImm 0 0) (fun _ t => t.pc = 0x1002) ∧
    Runs (at16 0x1000 id) (.jp 0) (fun _ t => t.pc = 0) ∧ Runs (at16 0xBFFF (V0 0xFF)) (.jpV0 0xFFF) (fun _ t => t.pc = 0x10FE) ∧
    Runs (at16 0x00EE (fun s => { s with sp := 1, stack := s.stack.set 0 0xFFFE })) .ret (fun _ t => t.pc = 0) ∧
    Runs (at16 0xF00A id) (.wkey 0) (fun s t => t.pc = s.pc) ∧
    Runs (at16 0xF00A (setKey 15 true)) (.wkey 0) (fun s t => t.pc = s.pc + 2) ∧
    Runs (at16 0x00E0 id) .cls (fun s t => t.pc = s.pc + 2) :=
  ⟨runs_by (by decide), runs_by (by decide), runs_by (by decide), runs_by (by decide), runs_by (by decide),
    runs_by (by decide), runs_by (by decide)⟩
theorem witness_StepKeepsMemoryCanonical :
    Runs (at16 0xF255 (fun s => V0 0xF0 (V1 0x22 (Iis 0x000 s)))) (.stRegs 2)
      (fun s t => Memory.wf s.font s.mem && t.mem ≠ s.mem) := runs_by (by decide)
theorem witness_EveryScheduleKeepsMemoryCanonical :
    Memory.wf (at16 0xF255 id).font (at16 0xF255 id).mem = true := by decide
theorem witness_ResetGivesEveryItemItsValue :
    (State.reset = State.reset ∨ ∃ s, State.reset = resetOp s) ∧
    (resetOp (at16 0x1200 (V0 7)) = State.reset ∨ ∃ s, resetOp (at16 0x1200 (V0 7)) = resetOp s) :=
  ⟨.inl rfl, .inr ⟨_, rfl⟩⟩
theorem witness_LoadProgramCopiesOrRefuses :
    3584 < (List.replicate 3585 (0 : Byte)).length ∧ (List.replicate 3584 (0 : Byte)).length ≤ 3584 ∧
    3583 < (List.replicate 3584 (0 : Byte)).length := by
  rw [List.length_replicate, List.length_replicate]; decide
/-- The glyph 0 at (60, 27), the last place where it fits: its first pixel is covered. -/
theorem witness_DrwXorsTheSpriteAndReportsCollision :
    let s := V0 60 (V1 27 State.reset)
    (∀ r, r < (5 : Nibble).toNat → s.i.toNat + r ≤ 0xFFF) ∧
    (∀ r c, SpriteBit s 5 r c → ¬ OutsideGrid s 0 1 r c) ∧
    Covers s 0 1 5 1788 ∧ pixel s 1788 = false := by
  refine ⟨by decide, ?_, ⟨0, 0, ⟨by decide, by decide, by decide⟩, by decide⟩, by decide +kernel⟩
  have h : ∀ r, r < 5 → ∀ c, c < 8 → (readMem (V0 60 (V1 27 State.reset)) (0 + r)).getLsbD (7 - c) = true →
      ¬ (63 < 60 + c ∨ 31 < 27 + r) := by decide
  rintro r c ⟨hr, hc, hb⟩
  exact h r hr c hc hb
/-- Two draws of the default glyph 0 at the edge of the grid. -/
theorem witness_DrawingTwiceRestoresTheFramebuffer :
    (0 : Nibble) ≠ VF ∧ (1 : Nibble) ≠ VF ∧
    ∃ t u, exec (.drw 0 1 5) (V0 60 (V1 27 State.reset)) = .next t ∧ exec (.drw 0 1 5) t = .next u :=
  ⟨by decide, by decide, _, _, rfl, rfl⟩
theorem witness_JpSetsPc : FetchesInstr (at16 0x1200 id) (.jp 0x200) ∧
    (0x200 : Addr12).toNat = (at16 0x1200 id).pc.toNat := ⟨fetches_by (by decide), by decide⟩
theorem witness_EndOfRunIsSafeForEver : EndOfRun (at16 0x1FFE (fun s => { s with pc := 0xFFE })) :=
  ⟨0xFFE, fetches_by (by decide), by decide⟩
theorem witness_CallPushesItsOwnAddress :
    (0 : Fin Config.stackDepth).val = State.reset.sp.val ∧
    (15 : Fin Config.stackDepth).val = { State.reset with sp := 15 }.sp.val ∧
    { State.reset with sp := 16 }.sp.val = 16 := by decide
theorem witness_RetPopsTheReturnAddress :
    (0 : Fin Config.stackDepth).val + 1 = { State.reset with sp := 1 }.sp.val ∧
    (15 : Fin Config.stackDepth).val + 1 = { State.reset with sp := 16 }.sp.val ∧ State.reset.sp.val = 0 := by decide
theorem witness_CallThenReturnResumesAfterTheCall :
    ∃ t, exec (.call 0x300) { State.reset with sp := 15 } = .next t ∧ (V0 9 t).sp = t.sp ∧ (V0 9 t).stack = t.stack :=
  ⟨_, rfl, rfl, rfl⟩
theorem witness_SkipsOnImmediate : readV (V0 0xFF State.reset) 0 = 0xFF ∧ readV State.reset VF ≠ 0x01 := by decide
theorem witness_SkipsOnRegister :
    ((0x5011 : Word).extractLsb' 12 4 = 0x5 ∧ (0x5011 : Word).extractLsb' 0 4 ≠ 0) ∧
    ((0x901F : Word).extractLsb' 12 4 = 0x9 ∧ (0x901F : Word).extractLsb' 0 4 ≠ 0) ∧
    readV State.reset 0 = readV State.reset VF ∧ readV (V0 1 State.reset) 0 ≠ readV (V0 1 State.reset) VF := by decide
theorem witness_AddRegInEveryCase :
    let s := V0 0xFF (V1 0x01 (VFis 0x80 State.reset))
    1 = (if 255 < (readV s 0).toNat + (readV s 1).toNat then 1 else 0) ∧ (0 : Nibble) ≠ VF ∧ (1 : Nibble) ≠ VF ∧
    0 = (if 255 < (readV s 1).toNat + (readV s VF).toNat then 1 else 0) ∧
    1 = (if 255 < (readV s VF).toNat + (readV s 0).toNat then 1 else 0) ∧
    1 = (if 255 < (readV s VF).toNat + (readV s VF).toNat then 1 else 0) := by decide
theorem witness_SubInEveryCase :
    let s := V0 0x05 (V1 0x05 (VFis 0x06 State.reset))
    1 = (if (readV s 1).toNat ≤ (readV s 0).toNat then 1 else 0) ∧ (0 : Nibble) ≠ VF ∧ (1 : Nibble) ≠ VF ∧
    0 = (if (readV s VF).toNat ≤ (readV s 0).toNat then 1 else 0) ∧
    1 = (if (readV s 0).toNat ≤ (readV s VF).toNat then 1 else 0) ∧
    1 = (if (readV s VF).toNat ≤ (readV s VF).toNat then 1 else 0) := by decide
theorem witness_SubnInEveryCase :
    let s := V0 0x05 (V1 0x05 (VFis 0x06 State.reset))
    1 = (if (readV s 0).toNat ≤ (readV s 1).toNat then 1 else 0) ∧ (0 : Nibble) ≠ VF ∧ (1 : Nibble) ≠ VF ∧
    1 = (if (readV s 0).toNat ≤ (readV s VF).toNat then 1 else 0) ∧
    0 = (if (readV s VF).toNat ≤ (readV s 0).toNat then 1 else 0) ∧
    1 = (if (readV s VF).toNat ≤ (readV s VF).toNat then 1 else 0) := by decide
/-- The shifts' two cases, on x, and the register bounds of `Fx55` and `Fx65`. -/
theorem witness_ShrShiftsVxRight : (0xE : Nibble) ≠ VF ∧ (0xF : Nibble) = VF := by decide
theorem witness_ShlShiftsVxLeft : (0x0 : Nibble) ≠ VF ∧ (0xF : Nibble) = VF := by decide
theorem witness_AddIWrapsWithoutFlag : ∃ t, exec (.addI 0) (V0 1 (Iis 0xFFF State.reset)) = .next t ∧
    (V0 1 (Iis 0xFFF State.reset)).i.toNat ≤ 0xFFF ∧ 0xFFF < t.i.toNat := ⟨_, rfl, by decide, by decide⟩
theorem witness_LdFPointsAtTheGlyph : (readV State.reset 0).toNat = (0 : Fin 16).val ∧
    (readV (V0 15 State.reset) 0).toNat = (15 : Fin 16).val := by decide
theorem witness_SkipsOnKey :
    let s := setKey 15 true (V0 15 (V1 16 State.reset))
    ((15 : Fin Config.numKeys).val = (readV s 0).toNat ∧ s.keys[15] = true) ∧
    ((0 : Fin Config.numKeys).val = (readV s 2).toNat ∧ s.keys[0] = false) ∧ 15 < (readV s 1).toNat := by decide
theorem witness_WkeyWaitsForAKey : (∃ k : Fin Config.numKeys, (setKey 15 true State.reset).keys[k.val] = true) ∧
    ∀ k : Fin Config.numKeys, State.reset.keys[k.val] = false := by decide
theorem witness_NoInstructionReadsTheSoundTimer :
    (∃ x, FetchesInstr (at16 0xF118 (V1 9)) (.ldStVx x)) ∧ ∀ x, ¬ FetchesInstr (at16 0xF107 id) (.ldStVx x) := by
  refine ⟨⟨1, fetches_by (by decide)⟩, fun x h => ?_⟩
  have h1 : FetchesInstr (at16 0xF107 id) (.ldVxDt 1) := fetches_by (by decide)
  exact absurd (h.unique h1) (by simp)
theorem witness_LdBStoresTheDecimalDigits : (Iis 0xFFD State.reset).i.toNat + 2 ≤ 0xFFF ∧
    0xFFF < (Iis 0xFFE State.reset).i.toNat + 2 := by decide
theorem witness_StRegsStoresXRegisters :
    ((0xF : Nibble) = 0 ∨ (Iis 0xFF1 State.reset).i.toNat + (0xF : Nibble).toNat ≤ 0x1000) ∧
    ((0 : Nibble) = 0 ∨ (Iis 0xFFFF State.reset).i.toNat + (0 : Nibble).toNat ≤ 0x1000) ∧
    ((1 : Nibble) ≠ 0 ∧ 0x1000 < (Iis 0x1000 State.reset).i.toNat + (1 : Nibble).toNat) := by decide
theorem witness_LdRegsLoadsXRegisters :
    ((1 : Nibble) = 0 ∨ (Iis 0xFFF State.reset).i.toNat + (1 : Nibble).toNat ≤ 0x1000) ∧
    ((0 : Nibble) = 0 ∨ (Iis 0xFFFF State.reset).i.toNat + (0 : Nibble).toNat ≤ 0x1000) ∧
    ((2 : Nibble) ≠ 0 ∧ 0x1000 < (Iis 0xFFF State.reset).i.toNat + (2 : Nibble).toNat) := by decide
theorem witness_StoreThenLoadRoundTrips :
    ∃ t, exec (.stRegs 0xF) (V0 9 (Iis 0xFF1 State.reset)) = .next t ∧ (V0 7 t).i = t.i ∧ (V0 7 t).mem = t.mem ∧
      (V0 7 t).font = t.font := ⟨_, rfl, rfl, rfl, rfl⟩
theorem witness_StoreIsSeenByTheNextFetch :
    Runs (at16 0xF255 (fun s => V0 0x12 (V1 0x34 (Iis 0x202 s)))) (.stRegs 2) (fun s t =>
      s.i = s.pc + 2 && t.pc.toNat ≤ 0xFFE && decide (decodeWord (readV s 0 ++ readV s 1) = .ok (.jp 0x234))) ∧
    Runs (at16 0xF255 (fun s => V0 0x12 (V1 0x34 (Iis 0xFFE { s with pc := 0xFFC })))) (.stRegs 2) (fun s t =>
      s.i = s.pc + 2 && t.pc.toNat ≤ 0xFFE && decide (decodeWord (readV s 0 ++ readV s 1) = .ok (.jp 0x234))) ∧
    2 ≤ (2 : Nibble).toNat := ⟨runs_by (by decide), runs_by (by decide), by decide⟩

end Sys2Proof.Tests
end

section
/-! PROOFS. Decoding read backwards (spec/30_encoding.md R75, R76): a word that decodes is the encoding of what it
decodes to, group by group, and what follows for the rows whose mask fixes the group alone. -/

namespace Sys2Proof

/-! ### The word of a decoded instruction -/

theorem encode_of_decodeGroup0 {w : Word} {i : Instr} (h : decodeGroup0 w = .ok i) : encode i = w := by
  unfold decodeGroup0 at h
  split at h
  · next hw => cases h; exact hw.symm
  · split at h
    · next hw => cases h; exact hw.symm
    · cases h

theorem encode_of_decodeGroup8 {w : Word} {i : Instr} (hop : fieldOp w = 0x8) (h : decodeGroup8 w = .ok i) :
    encode i = w := by
  unfold decodeGroup8 at h
  split at h <;> cases h <;> next hn => exact (eq_wordXYN hop hn).symm

theorem encode_of_decodeGroupE {w : Word} {i : Instr} (hop : fieldOp w = 0xE) (h : decodeGroupE w = .ok i) :
    encode i = w := by
  unfold decodeGroupE at h
  split at h <;> cases h <;> next hk => exact (eq_wordXKK hop hk).symm

theorem encode_of_decodeGroupF {w : Word} {i : Instr} (hop : fieldOp w = 0xF) (h : decodeGroupF w = .ok i) :
    encode i = w := by
  unfold decodeGroupF at h
  split at h <;> cases h <;> next hk => exact (eq_wordXKK hop hk).symm

/-- Each group's decoder reads all of the word: the group nibble selects it and the format's fields give the rest. -/
theorem encode_of_decodeWord {w : Word} {i : Instr} (h : decodeWord w = .ok i) : encode i = w := by
  unfold decodeWord at h
  split at h
  case h_1 => exact encode_of_decodeGroup0 h
  case h_9 hop => exact encode_of_decodeGroup8 hop h
  case h_15 hop => exact encode_of_decodeGroupE hop h
  case h_16 hop => exact encode_of_decodeGroupF hop h
  case h_17 => cases h
  case h_6 hop | h_10 hop =>
    split at h <;> cases h
    next hn => exact (eq_wordXYN hop hn).symm
  case h_2 hop | h_3 hop | h_11 hop | h_12 hop => cases h; exact (eq_wordNNN hop).symm
  case h_4 hop | h_5 hop | h_7 hop | h_8 hop | h_13 hop => cases h; exact (eq_wordXKK hop rfl).symm
  case h_14 hop => cases h; exact (eq_wordXYN hop rfl).symm

/-! ### Rows of mask F000 -/

/-- A row of mask F000 says what its group decodes to, once the group's words decode so and the instructions made
encode into the group. -/
theorem encoded_of_group {c : Nibble} {mk : Word → Instr} (hdec : ∀ w, fieldOp w = c → decodeWord w = .ok (mk w))
    (henc : ∀ w, fieldOp (encode (mk w)) = c) : Machine.Encoded 0xF000 (wordNNN c 0) mk := fun w =>
  (mask_group w c).trans ⟨hdec w, fun h => by rw [← encode_of_decodeWord h, henc]⟩

theorem encoded_seImm : Machine.Encoded 0xF000 0x3000 (fun w => .seImm (fieldX w) (fieldKK w)) :=
  encoded_of_group (c := 0x3) (fun w h => by simp [decodeWord, h]) (fun _ => fieldOp_wordXKK _ _ _)

theorem encoded_sneImm : Machine.Encoded 0xF000 0x4000 (fun w => .sneImm (fieldX w) (fieldKK w)) :=
  encoded_of_group (c := 0x4) (fun w h => by simp [decodeWord, h]) (fun _ => fieldOp_wordXKK _ _ _)

end Sys2Proof
end

section
/-! PROOFS. The skips (spec/42_skips.md R120 to R124): a skip moves pc by 4 or by 2 and changes nothing else. -/

namespace Sys2Proof.Machine

/-- A skip's frame (R124). -/
theorem keepsAllBut_pc_skipIf (c : Bool) (s : State) : KeepsAllBut (fun p => p = .pc) s (skipIf c s) := by
  intro p hp
  cases p with
  | pc => exact absurd rfl hp
  | _ => rfl

theorem exec_seImm (x : Nibble) (kk : Byte) (s : State) :
    exec (.seImm x kk) s = .next (skipIf (readV s x == kk) s) := rfl

theorem exec_sneImm (x : Nibble) (kk : Byte) (s : State) :
    exec (.sneImm x kk) s = .next (skipIf (readV s x != kk) s) := rfl

/-- Settles O36: the two rows are groups 3 and 4, and both instructions are a `skipIf` on the comparison of Vx
with kk. -/
theorem skipsOnImmediate : Obligations.SkipsOnImmediate := by
  refine ⟨encoded_seImm, encoded_sneImm, fun x kk s => ⟨?_, ?_⟩⟩
  · exact ⟨_, exec_seImm x kk s, fun h => by simp [h], fun h => by simp [h], keepsAllBut_pc_skipIf _ s⟩
  · exact ⟨_, exec_sneImm x kk s, fun h => by simp [h], fun h => by simp [h], keepsAllBut_pc_skipIf _ s⟩

end Sys2Proof.Machine
end

section
/-! PROOFS. The register-immediate instructions (spec/43_immediate.md R130, R131): one register is written, pc moves to
the next word, and no flag is written. -/

namespace Sys2Proof

theorem encoded_ldImm : Machine.Encoded 0xF000 0x6000 (fun w => .ldImm (fieldX w) (fieldKK w)) :=
  encoded_of_group (c := 0x6) (fun w h => by simp [decodeWord, h]) (fun _ => fieldOp_wordXKK _ _ _)

theorem encoded_addImm : Machine.Encoded 0xF000 0x7000 (fun w => .addImm (fieldX w) (fieldKK w)) :=
  encoded_of_group (c := 0x7) (fun w h => by simp [decodeWord, h]) (fun _ => fieldOp_wordXKK _ _ _)

end Sys2Proof

namespace Sys2Proof.Machine

theorem exec_ldImm (x : Nibble) (kk : Byte) (s : State) :
    exec (.ldImm x kk) s = .next (advance (writeV s x kk)) := rfl

theorem exec_addImm (x : Nibble) (kk : Byte) (s : State) :
    exec (.addImm x kk) s = .next (advance (writeV s x (readV s x + kk))) := rfl

/-- The sum that 7xkk leaves in Vx wraps at 256 (R131). -/
theorem toNat_readV_addImm (x : Nibble) (kk : Byte) (s : State) :
    (readV (advance (writeV s x (readV s x + kk))) x).toNat = ((readV s x).toNat + kk.toNat) % 256 := by
  rw [readV_advance, readV_writeV_self, BitVec.toNat_add]

/-- Settles O38: the row is group 6, Vx holds what was written to it, and the rest is the frame of every
instruction. -/
theorem ldImmLoadsTheByte : Obligations.LdImmLoadsTheByte :=
  ⟨encoded_ldImm, fun x kk s =>
    ⟨_, exec_ldImm x kk s, readV_writeV_self s x kk, rfl, exec_frame _ _ _ (exec_ldImm x kk s)⟩⟩

/-- Settles O39: the row is group 7 and the sum wraps; 7x01 adds 1 to the kk that 6xkk left in Vx. -/
theorem addImmWrapsWithoutFlag : Obligations.AddImmWrapsWithoutFlag := by
  refine ⟨encoded_addImm, fun x kk s => ?_, fun x kk s => ?_⟩
  · exact ⟨_, exec_addImm x kk s, toNat_readV_addImm x kk s, rfl, exec_frame _ _ _ (exec_addImm x kk s)⟩
  · have hx : readV (advance (writeV s x kk)) x = kk := readV_writeV_self s x kk
    refine ⟨_, _, exec_ldImm x kk s, exec_addImm x 1 _, ?_⟩
    rw [toNat_readV_addImm, hx]
    simp

end Sys2Proof.Machine
end

section
/-! PROOFS. Register copy and the three logic instructions (spec/44_alu.md R140 to R143): each row of mask F00F is
fixed by its group and its low nibble; one register is written, pc moves to the next word, and no flag is written. -/

namespace Sys2Proof

/-! ### Rows of mask F00F -/

/-- A row of mask F00F says what its group and low nibble decode to, once the words with these two nibbles decode so
and the instructions made encode into them in format XY. -/
theorem encoded_of_groupN {c d : Nibble} {mk : Nibble → Nibble → Instr}
    (hdec : ∀ w, fieldOp w = c → fieldN w = d → decodeWord w = .ok (mk (fieldX w) (fieldY w)))
    (henc : ∀ x y, encode (mk x y) = wordXYN c x y d) :
    Machine.Encoded 0xF00F (wordXYN c 0 0 d) (fun w => mk (fieldX w) (fieldY w)) := fun w => by
  refine (mask_groupN w c d).trans ⟨fun ⟨hc, hd⟩ => hdec w hc hd, fun h => ?_⟩
  rw [← encode_of_decodeWord h, henc]
  exact ⟨fieldOp_wordXYN _ _ _ _, fieldN_wordXYN _ _ _ _⟩

theorem encoded_ldReg : Machine.Encoded 0xF00F 0x8000 (fun w => .ldReg (fieldX w) (fieldY w)) :=
  encoded_of_groupN (c := 0x8) (d := 0x0) (mk := .ldReg) (fun w h hn => by simp [decodeWord, decodeGroup8, h, hn])
    (fun _ _ => rfl)

theorem encoded_or : Machine.Encoded 0xF00F 0x8001 (fun w => .or (fieldX w) (fieldY w)) :=
  encoded_of_groupN (c := 0x8) (d := 0x1) (mk := .or) (fun w h hn => by simp [decodeWord, decodeGroup8, h, hn])
    (fun _ _ => rfl)

theorem encoded_and : Machine.Encoded 0xF00F 0x8002 (fun w => .and (fieldX w) (fieldY w)) :=
  encoded_of_groupN (c := 0x8) (d := 0x2) (mk := .and) (fun w h hn => by simp [decodeWord, decodeGroup8, h, hn])
    (fun _ _ => rfl)

theorem encoded_xor : Machine.Encoded 0xF00F 0x8003 (fun w => .xor (fieldX w) (fieldY w)) :=
  encoded_of_groupN (c := 0x8) (d := 0x3) (mk := .xor) (fun w h hn => by simp [decodeWord, decodeGroup8, h, hn])
    (fun _ _ => rfl)

end Sys2Proof

namespace Sys2Proof.Machine

theorem exec_ldReg (x y : Nibble) (s : State) :
    exec (.ldReg x y) s = .next (advance (writeV s x (readV s y))) := rfl

theorem exec_or (x y : Nibble) (s : State) :
    exec (.or x y) s = .next (advance (writeV s x (readV s x ||| readV s y))) := rfl

theorem exec_and (x y : Nibble) (s : State) :
    exec (.and x y) s = .next (advance (writeV s x (readV s x &&& readV s y))) := rfl

theorem exec_xor (x y : Nibble) (s : State) :
    exec (.xor x y) s = .next (advance (writeV s x (readV s x ^^^ readV s y))) := rfl

/-- Writing Vy's value to Vx leaves that value in Vy, whether or not y is x. -/
theorem readV_writeV_readV (x y : Nibble) (s : State) : readV (writeV s x (readV s y)) y = readV s y := by
  rw [readV_writeV, ite_self]

/-- Settles O40: the row is group 8 with low nibble 0, Vx holds the copy of Vy, and the rest is the frame of every
instruction. -/
theorem ldRegCopies : Obligations.LdRegCopies :=
  ⟨encoded_ldReg, fun x y s =>
    ⟨_, exec_ldReg x y s, readV_writeV_self s x _, readV_writeV_readV x y s, rfl,
      exec_frame _ _ _ (exec_ldReg x y s)⟩⟩

/-- Settles O41: the rows are group 8 with low nibbles 1 to 3, Vx holds the word operation on the two old bytes, which
is taken bit by bit, and the rest is the frame of every instruction, which names VF only as Vx. -/
theorem logicIsBitwiseWithoutFlag : Obligations.LogicIsBitwiseWithoutFlag := by
  refine ⟨encoded_or, encoded_and, encoded_xor, fun x y s => ?_⟩
  have hx (b : Byte) : readV (advance (writeV s x b)) x = b := readV_writeV_self s x b
  refine ⟨⟨_, exec_or x y s, fun b _ => ?_, rfl, exec_frame _ _ _ (exec_or x y s)⟩,
    ⟨_, exec_and x y s, fun b _ => ?_, rfl, exec_frame _ _ _ (exec_and x y s)⟩,
    ⟨_, exec_xor x y s, fun b _ => ?_, rfl, exec_frame _ _ _ (exec_xor x y s)⟩⟩
  · rw [hx, BitVec.getLsbD_or]
  · rw [hx, BitVec.getLsbD_and]
  · rw [hx, BitVec.getLsbD_xor]

end Sys2Proof.Machine
end

section
/-! PROOFS. The address and glyph loads of I (spec/45_index_random.md R160, R163): I is written, pc moves to the next
word, and nothing else changes. -/

namespace Sys2Proof

/-! ### Rows of mask F0FF -/

/-- A row of mask F0FF says what its group and low byte decode to, once the words with these two fields decode so and
the instructions made encode into them in format XKK. -/
theorem encoded_of_groupKK {c : Nibble} {d : Byte} {mk : Nibble → Instr}
    (hdec : ∀ w, fieldOp w = c → fieldKK w = d → decodeWord w = .ok (mk (fieldX w)))
    (henc : ∀ x, encode (mk x) = wordXKK c x d) :
    Machine.Encoded 0xF0FF (wordXKK c 0 d) (fun w => mk (fieldX w)) := fun w => by
  refine (mask_groupKK w c d).trans ⟨fun ⟨hc, hd⟩ => hdec w hc hd, fun h => ?_⟩
  rw [← encode_of_decodeWord h, henc]
  exact ⟨fieldOp_wordXKK _ _ _, fieldKK_wordXKK _ _ _⟩

theorem encoded_ldF : Machine.Encoded 0xF0FF 0xF029 (fun w => .ldF (fieldX w)) :=
  encoded_of_groupKK (c := 0xF) (d := 0x29) (mk := .ldF) (fun w h hk => by simp [decodeWord, decodeGroupF, h, hk])
    (fun _ => rfl)

theorem encoded_ldI : Machine.Encoded 0xF000 0xA000 (fun w => .ldI (fieldNNN w)) :=
  encoded_of_group (c := 0xA) (fun w h => by simp [decodeWord, h]) (fun _ => fieldOp_wordNNN _ _)

end Sys2Proof

namespace Sys2Proof.Machine

theorem exec_ldI (nnn : Addr12) (s : State) : exec (.ldI nnn) s = .next (advance (writeI s (addrImm nnn))) := rfl

theorem exec_ldF (x : Nibble) (s : State) :
    exec (.ldF x) s = .next (advance (writeI s (glyphAddr (readV s x)))) := rfl

/-- The glyph address of a digit is where the reset contents hold that digit's glyph, whatever `FONT` is (R33, R163). -/
theorem initialByte_glyphAddr (font : Font) {b : Byte} {g : Fin 16} (hb : b.toNat = g.val) (q : Fin 5) :
    initialByte font ((glyphAddr b).toNat + q.val) = (font[g.val])[q.val] := by
  rw [glyphAddr_toNat, hb, initialByte_font]

/-- Settles O50: the row is group F with low byte 29, I holds the glyph address of the whole byte Vx, and the rest is
the frame of every instruction. -/
theorem ldFPointsAtTheGlyph : Obligations.LdFPointsAtTheGlyph :=
  ⟨encoded_ldF, fun x s =>
    ⟨_, exec_ldF x s, glyphAddr_toNat _, rfl, fun _ q hx => initialByte_glyphAddr s.font hx q,
      exec_frame _ _ _ (exec_ldF x s)⟩⟩

/-- Settles O47: the row is group A, I holds the operand zero-extended, and the rest is the frame of every
instruction. -/
theorem ldILoadsTheAddress : Obligations.LdILoadsTheAddress :=
  ⟨encoded_ldI, fun nnn s =>
    ⟨_, exec_ldI nnn s, addrImm_toNat nnn, rfl, exec_frame _ _ _ (exec_ldI nnn s)⟩⟩

end Sys2Proof.Machine
end

section
/-! PROOFS. The timer loads and stores (spec/47_timers.md R180 to R182): one byte is copied between Vx and a timer, pc
moves to the next word, and nothing else changes. -/

namespace Sys2Proof

theorem encoded_ldVxDt : Machine.Encoded 0xF0FF 0xF007 (fun w => .ldVxDt (fieldX w)) :=
  encoded_of_groupKK (c := 0xF) (d := 0x07) (mk := .ldVxDt) (fun w h hk => by simp [decodeWord, decodeGroupF, h, hk])
    (fun _ => rfl)

theorem encoded_ldDtVx : Machine.Encoded 0xF0FF 0xF015 (fun w => .ldDtVx (fieldX w)) :=
  encoded_of_groupKK (c := 0xF) (d := 0x15) (mk := .ldDtVx) (fun w h hk => by simp [decodeWord, decodeGroupF, h, hk])
    (fun _ => rfl)

theorem encoded_ldStVx : Machine.Encoded 0xF0FF 0xF018 (fun w => .ldStVx (fieldX w)) :=
  encoded_of_groupKK (c := 0xF) (d := 0x18) (mk := .ldStVx) (fun w h hk => by simp [decodeWord, decodeGroupF, h, hk])
    (fun _ => rfl)

end Sys2Proof

namespace Sys2Proof.Machine

theorem exec_ldVxDt (x : Nibble) (s : State) : exec (.ldVxDt x) s = .next (advance (writeV s x s.dt)) := rfl

theorem exec_ldDtVx (x : Nibble) (s : State) :
    exec (.ldDtVx x) s = .next (advance { s with dt := readV s x }) := rfl

theorem exec_ldStVx (x : Nibble) (s : State) :
    exec (.ldStVx x) s = .next (advance { s with st := readV s x }) := rfl

/-- Settles O53: the rows are group F with low bytes 07, 15 and 18, each destination holds the byte copied to it, and
the rest is the frame of every instruction, which names the source and sound_flag for none of the three. -/
theorem timerLoadsCopy : Obligations.TimerLoadsCopy := by
  refine ⟨encoded_ldVxDt, encoded_ldDtVx, encoded_ldStVx, fun x s => ⟨?_, ?_, ?_⟩⟩
  · exact ⟨_, exec_ldVxDt x s, readV_writeV_self s x s.dt, rfl, exec_frame _ _ _ (exec_ldVxDt x s)⟩
  · exact ⟨_, exec_ldDtVx x s, rfl, rfl, exec_frame _ _ _ (exec_ldDtVx x s)⟩
  · exact ⟨_, exec_ldStVx x s, rfl, rfl, exec_frame _ _ _ (exec_ldStVx x s)⟩

end Sys2Proof.Machine
end

section
/-! PROOFS. `load_program` (spec/70_reset_and_hazards.md R243): a program that fits is one store of bytes from 0x200,
and a store of bytes writes the addresses of its bytes and nothing else. -/

namespace Sys2Proof.Machine

/-! ### A store of bytes -/

/-- Each byte stored is read back at its address (R57, R58). -/
theorem readMem_writeBytes_add (s : State) (a j : Nat) (bs : List Byte) (h : j < bs.length) :
    readMem (writeBytes s a bs) (a + j) = bs[j] := by
  rw [readMem_writeBytes, if_pos (Nat.le_add_right a j), Nat.add_sub_cancel_left, List.getElem?_eq_getElem h,
    Option.getD_some]

/-- An address that no stored byte goes to keeps its byte. -/
theorem readMem_writeBytes_of_ne {s : State} {a c : Nat} {bs : List Byte} (h : ∀ j, j < bs.length → c ≠ a + j) :
    readMem (writeBytes s a bs) c = readMem s c := by
  rw [readMem_writeBytes]
  split
  · next hac =>
    have hlen : bs.length ≤ c - a := Nat.le_of_not_lt fun hlt => h _ hlt (Nat.add_sub_of_le hac).symm
    rw [List.getElem?_eq_none hlen, Option.getD_none]
  · rfl

/-- A store's frame. -/
theorem keepsAllBut_writeBytes (s : State) (a : Nat) (bs : List Byte) :
    KeepsAllBut (fun p => ∃ j, j < bs.length ∧ p = .byte (a + j)) s (writeBytes s a bs) := by
  intro p hp
  cases p with
  | byte c => exact readMem_writeBytes_of_ne fun j hj hc => hp ⟨j, hj, congrArg Part.byte hc⟩
  | _ => rfl

/-! ### The two answers -/

theorem loadProgram_of_fits {bytes : List Byte} (s : State) (h : bytes.length ≤ 3584) :
    loadProgram bytes s = (writeBytes s 0x200 bytes, .ok) := if_pos h

theorem loadProgram_of_too_long {bytes : List Byte} (s : State) (h : 3584 < bytes.length) :
    loadProgram bytes s = (s, .capacityExceeded) := if_neg (Nat.not_le_of_lt h)

/-- Settles O26: the length alone decides between the refusal and one store of bytes from 0x200, whose bytes read back
and whose frame is that of every such store. -/
theorem loadProgramCopiesOrRefuses : Obligations.LoadProgramCopiesOrRefuses := by
  refine fun bytes s => ⟨loadProgram_of_too_long s, fun hfits => ?_⟩
  rw [loadProgram_of_fits s hfits]
  exact ⟨rfl, fun j hj => readMem_writeBytes_add s 0x200 j bytes hj, keepsAllBut_writeBytes s 0x200 bytes⟩

end Sys2Proof.Machine
end

section
/-! PROOFS. Encoding (spec/30_encoding.md R71 to R77): decoding an encoded instruction, the rows of the opcode map one
by one and as a table, and the words that no row selects. -/

namespace Sys2Proof

/-! ### Decode after encode -/

/-- The two fixed words decode by computation; in every other word the fields of its format read back the group, the
secondary opcode and the operands. -/
theorem decodeWord_encode (i : Instr) : decodeWord (encode i) = .ok i := by
  cases i with
  | cls | ret => rfl
  | _ => simp [encode, decodeWord, decodeGroup8, decodeGroupE, decodeGroupF]

theorem decodeBytes_encodeBytes (i : Instr) (rest : List Byte) :
    decodeBytes (encodeBytes i ++ rest) = .ok (i, rest) := by
  simp [encodeBytes, decodeBytes, wordOfBytes_high_low, decodeWord_encode]

/-- Settles O2: the fields of a built word give back the operands, and the two bytes give back the word. -/
theorem decodeOfEncodeIsTheInstruction : Obligations.DecodeOfEncodeIsTheInstruction := fun i rest =>
  ⟨decodeWord_encode i, decodeBytes_encodeBytes i rest⟩

/-- Settles O3: each group's decoder reads all of the word. -/
theorem encodeOfDecodeIsTheWord : Obligations.EncodeOfDecodeIsTheWord := fun _ _ => encode_of_decodeWord

/-- Settles O1, by running the decoder on the twelve words. -/
theorem sampleWordsDecode : Obligations.SampleWordsDecode := by
  unfold Obligations.SampleWordsDecode
  decide

/-! ### The rows that the earlier files do not have -/

/-- A row of mask FFFF selects the word of one instruction. -/
theorem encoded_of_word (i : Instr) : Machine.Encoded 0xFFFF (encode i) (fun _ => i) := fun w => by
  rw [and_FFFF]
  exact ⟨fun h => h ▸ decodeWord_encode i, fun h => (encode_of_decodeWord h).symm⟩

theorem encoded_cls : Machine.Encoded 0xFFFF 0x00E0 (fun _ => .cls) := encoded_of_word .cls

theorem encoded_ret : Machine.Encoded 0xFFFF 0x00EE (fun _ => .ret) := encoded_of_word .ret

theorem encoded_jp : Machine.Encoded 0xF000 0x1000 (fun w => .jp (fieldNNN w)) :=
  encoded_of_group (c := 0x1) (fun w h => by simp [decodeWord, h]) (fun _ => fieldOp_wordNNN _ _)

theorem encoded_call : Machine.Encoded 0xF000 0x2000 (fun w => .call (fieldNNN w)) :=
  encoded_of_group (c := 0x2) (fun w h => by simp [decodeWord, h]) (fun _ => fieldOp_wordNNN _ _)

theorem encoded_jpV0 : Machine.Encoded 0xF000 0xB000 (fun w => .jpV0 (fieldNNN w)) :=
  encoded_of_group (c := 0xB) (fun w h => by simp [decodeWord, h]) (fun _ => fieldOp_wordNNN _ _)

theorem encoded_rnd : Machine.Encoded 0xF000 0xC000 (fun w => .rnd (fieldX w) (fieldKK w)) :=
  encoded_of_group (c := 0xC) (fun w h => by simp [decodeWord, h]) (fun _ => fieldOp_wordXKK _ _ _)

theorem encoded_drw : Machine.Encoded 0xF000 0xD000 (fun w => .drw (fieldX w) (fieldY w) (fieldN w)) :=
  encoded_of_group (c := 0xD) (fun w h => by simp [decodeWord, h]) (fun _ => fieldOp_wordXYN _ _ _ _)

theorem encoded_seReg : Machine.Encoded 0xF00F 0x5000 (fun w => .seReg (fieldX w) (fieldY w)) :=
  encoded_of_groupN (c := 0x5) (d := 0x0) (mk := .seReg) (fun w h hn => by simp [decodeWord, h, hn]) (fun _ _ => rfl)

theorem encoded_sneReg : Machine.Encoded 0xF00F 0x9000 (fun w => .sneReg (fieldX w) (fieldY w)) :=
  encoded_of_groupN (c := 0x9) (d := 0x0) (mk := .sneReg) (fun w h hn => by simp [decodeWord, h, hn]) (fun _ _ => rfl)

theorem encoded_addReg : Machine.Encoded 0xF00F 0x8004 (fun w => .addReg (fieldX w) (fieldY w)) :=
  encoded_of_groupN (c := 0x8) (d := 0x4) (mk := .addReg) (fun w h hn => by simp [decodeWord, decodeGroup8, h, hn])
    (fun _ _ => rfl)

theorem encoded_sub : Machine.Encoded 0xF00F 0x8005 (fun w => .sub (fieldX w) (fieldY w)) :=
  encoded_of_groupN (c := 0x8) (d := 0x5) (mk := .sub) (fun w h hn => by simp [decodeWord, decodeGroup8, h, hn])
    (fun _ _ => rfl)

theorem encoded_shr : Machine.Encoded 0xF00F 0x8006 (fun w => .shr (fieldX w) (fieldY w)) :=
  encoded_of_groupN (c := 0x8) (d := 0x6) (mk := .shr) (fun w h hn => by simp [decodeWord, decodeGroup8, h, hn])
    (fun _ _ => rfl)

theorem encoded_subn : Machine.Encoded 0xF00F 0x8007 (fun w => .subn (fieldX w) (fieldY w)) :=
  encoded_of_groupN (c := 0x8) (d := 0x7) (mk := .subn) (fun w h hn => by simp [decodeWord, decodeGroup8, h, hn])
    (fun _ _ => rfl)

theorem encoded_shl : Machine.Encoded 0xF00F 0x800E (fun w => .shl (fieldX w) (fieldY w)) :=
  encoded_of_groupN (c := 0x8) (d := 0xE) (mk := .shl) (fun w h hn => by simp [decodeWord, decodeGroup8, h, hn])
    (fun _ _ => rfl)

theorem encoded_skp : Machine.Encoded 0xF0FF 0xE09E (fun w => .skp (fieldX w)) :=
  encoded_of_groupKK (c := 0xE) (d := 0x9E) (mk := .skp) (fun w h hk => by simp [decodeWord, decodeGroupE, h, hk])
    (fun _ => rfl)

theorem encoded_sknp : Machine.Encoded 0xF0FF 0xE0A1 (fun w => .sknp (fieldX w)) :=
  encoded_of_groupKK (c := 0xE) (d := 0xA1) (mk := .sknp) (fun w h hk => by simp [decodeWord, decodeGroupE, h, hk])
    (fun _ => rfl)

theorem encoded_wkey : Machine.Encoded 0xF0FF 0xF00A (fun w => .wkey (fieldX w)) :=
  encoded_of_groupKK (c := 0xF) (d := 0x0A) (mk := .wkey) (fun w h hk => by simp [decodeWord, decodeGroupF, h, hk])
    (fun _ => rfl)

theorem encoded_addI : Machine.Encoded 0xF0FF 0xF01E (fun w => .addI (fieldX w)) :=
  encoded_of_groupKK (c := 0xF) (d := 0x1E) (mk := .addI) (fun w h hk => by simp [decodeWord, decodeGroupF, h, hk])
    (fun _ => rfl)

theorem encoded_ldB : Machine.Encoded 0xF0FF 0xF033 (fun w => .ldB (fieldX w)) :=
  encoded_of_groupKK (c := 0xF) (d := 0x33) (mk := .ldB) (fun w h hk => by simp [decodeWord, decodeGroupF, h, hk])
    (fun _ => rfl)

theorem encoded_stRegs : Machine.Encoded 0xF0FF 0xF055 (fun w => .stRegs (fieldX w)) :=
  encoded_of_groupKK (c := 0xF) (d := 0x55) (mk := .stRegs) (fun w h hk => by simp [decodeWord, decodeGroupF, h, hk])
    (fun _ => rfl)

theorem encoded_ldRegs : Machine.Encoded 0xF0FF 0xF065 (fun w => .ldRegs (fieldX w)) :=
  encoded_of_groupKK (c := 0xF) (d := 0x65) (mk := .ldRegs) (fun w h hk => by simp [decodeWord, decodeGroupF, h, hk])
    (fun _ => rfl)

/-! ### The opcode map as a table -/

/-- A row is the row of one instruction: the words it selects decode, and to its mnemonic. -/
def OpcodeRow.IsRowOf (r : OpcodeRow) (mk : Word → Instr) : Prop :=
  Machine.Encoded r.mask r.value mk ∧ ∀ w, (mk w).mnemonic = r.mnemonic

theorem opcodeRow_has_meaning : ∀ r ∈ opcodeMap, ∃ mk, r.IsRowOf mk := by
  simp only [opcodeMap, opcodeRowsImmediate, opcodeRowsRegister, opcodeRowsIndexAndDevice, List.forall_mem_append,
    List.forall_mem_cons, OpcodeRow.IsRowOf]
  exact
    ⟨⟨⟨⟨_, encoded_cls, fun _ => rfl⟩, ⟨_, encoded_ret, fun _ => rfl⟩, ⟨_, encoded_jp, fun _ => rfl⟩,
    ⟨_, encoded_call, fun _ => rfl⟩, ⟨_, encoded_seImm, fun _ => rfl⟩, ⟨_, encoded_sneImm, fun _ => rfl⟩,
    ⟨_, encoded_seReg, fun _ => rfl⟩, ⟨_, encoded_ldImm, fun _ => rfl⟩, ⟨_, encoded_addImm, fun _ => rfl⟩, nofun⟩,
    ⟨⟨_, encoded_ldReg, fun _ => rfl⟩, ⟨_, encoded_or, fun _ => rfl⟩, ⟨_, encoded_and, fun _ => rfl⟩,
    ⟨_, encoded_xor, fun _ => rfl⟩, ⟨_, encoded_addReg, fun _ => rfl⟩, ⟨_, encoded_sub, fun _ => rfl⟩,
    ⟨_, encoded_shr, fun _ => rfl⟩, ⟨_, encoded_subn, fun _ => rfl⟩, ⟨_, encoded_shl, fun _ => rfl⟩,
    ⟨_, encoded_sneReg, fun _ => rfl⟩, nofun⟩⟩,
    ⟨⟨_, encoded_ldI, fun _ => rfl⟩, ⟨_, encoded_jpV0, fun _ => rfl⟩, ⟨_, encoded_rnd, fun _ => rfl⟩,
    ⟨_, encoded_drw, fun _ => rfl⟩, ⟨_, encoded_skp, fun _ => rfl⟩, ⟨_, encoded_sknp, fun _ => rfl⟩,
    ⟨_, encoded_ldVxDt, fun _ => rfl⟩, ⟨_, encoded_wkey, fun _ => rfl⟩, ⟨_, encoded_ldDtVx, fun _ => rfl⟩,
    ⟨_, encoded_ldStVx, fun _ => rfl⟩, ⟨_, encoded_addI, fun _ => rfl⟩, ⟨_, encoded_ldF, fun _ => rfl⟩,
    ⟨_, encoded_ldB, fun _ => rfl⟩, ⟨_, encoded_stRegs, fun _ => rfl⟩, ⟨_, encoded_ldRegs, fun _ => rfl⟩, nofun⟩⟩

/-- Every instruction's word is selected by the row of its mnemonic. -/
theorem row_selects_encode : ∀ i : Instr, Laws.RowMatch.Statement i
  | .cls => Laws.RowMatch.cls
  | .ret => Laws.RowMatch.ret
  | .jp nnn => Laws.RowMatch.jp nnn
  | .call nnn => Laws.RowMatch.call nnn
  | .seImm x kk => Laws.RowMatch.seImm x kk
  | .sneImm x kk => Laws.RowMatch.sneImm x kk
  | .seReg x y => Laws.RowMatch.seReg x y
  | .ldImm x kk => Laws.RowMatch.ldImm x kk
  | .addImm x kk => Laws.RowMatch.addImm x kk
  | .ldReg x y => Laws.RowMatch.ldReg x y
  | .or x y => Laws.RowMatch.or x y
  | .and x y => Laws.RowMatch.and x y
  | .xor x y => Laws.RowMatch.xor x y
  | .addReg x y => Laws.RowMatch.addReg x y
  | .sub x y => Laws.RowMatch.sub x y
  | .shr x y => Laws.RowMatch.shr x y
  | .subn x y => Laws.RowMatch.subn x y
  | .shl x y => Laws.RowMatch.shl x y
  | .sneReg x y => Laws.RowMatch.sneReg x y
  | .ldI nnn => Laws.RowMatch.ldI nnn
  | .jpV0 nnn => Laws.RowMatch.jpV0 nnn
  | .rnd x kk => Laws.RowMatch.rnd x kk
  | .drw x y n => Laws.RowMatch.drw x y n
  | .skp x => Laws.RowMatch.skp x
  | .sknp x => Laws.RowMatch.sknp x
  | .ldVxDt x => Laws.RowMatch.ldVxDt x
  | .wkey x => Laws.RowMatch.wkey x
  | .ldDtVx x => Laws.RowMatch.ldDtVx x
  | .ldStVx x => Laws.RowMatch.ldStVx x
  | .addI x => Laws.RowMatch.addI x
  | .ldF x => Laws.RowMatch.ldF x
  | .ldB x => Laws.RowMatch.ldB x
  | .stRegs x => Laws.RowMatch.stRegs x
  | .ldRegs x => Laws.RowMatch.ldRegs x

/-- No mnemonic stands in two rows. -/
theorem opcodeRow_ext {r q : OpcodeRow} (hr : r ∈ opcodeMap) (hq : q ∈ opcodeMap) (h : r.mnemonic = q.mnemonic) :
    r = q :=
  List.inj_on_of_nodup_map (f := OpcodeRow.mnemonic) (by decide) hr hq h

/-- A word that a row selects decodes to an instruction with the row's mnemonic (R75). -/
theorem decodeWord_of_selected {w : Word} {r : OpcodeRow} (hr : r ∈ opcodeMap) (h : w &&& r.mask = r.value) :
    ∃ i, decodeWord w = .ok i ∧ i.mnemonic = r.mnemonic := by
  obtain ⟨mk, henc, hmn⟩ := opcodeRow_has_meaning r hr
  exact ⟨mk w, (henc w).1 h, hmn w⟩

/-- A word that decodes is selected by the row of what it decodes to (R75, R76). -/
theorem selected_of_decodeWord {w : Word} {i : Instr} (h : decodeWord w = .ok i) :
    ∃ r ∈ opcodeMap, r.mnemonic = i.mnemonic ∧ w &&& r.mask = r.value := by
  rw [← encode_of_decodeWord h]
  exact row_selects_encode i

/-- Settles O5: each row's words decode to its instruction, each decoded word is selected by its instruction's row, and
a mnemonic names one row. -/
theorem rowMatchesExactlyItsInstruction : Obligations.RowMatchesExactlyItsInstruction := by
  refine ⟨fun w r hr => ⟨decodeWord_of_selected hr, ?_⟩, fun w r q hr hq hwr hwq => ?_⟩
  · rintro ⟨i, hi, hmn⟩
    obtain ⟨q, hq, hqi, hsel⟩ := selected_of_decodeWord hi
    rwa [opcodeRow_ext hr hq (hmn.symm.trans hqi.symm)]
  · obtain ⟨i, hi, hir⟩ := decodeWord_of_selected hr hwr
    obtain ⟨j, hj, hjq⟩ := decodeWord_of_selected hq hwq
    have hij : i = j := Except.ok.inj (hi.symm.trans hj)
    exact opcodeRow_ext hr hq (by rw [← hir, hij, hjq])

/-- A word is unknown exactly when no row selects it (R77). -/
theorem decodeWord_eq_unknown_iff {w : Word} :
    decodeWord w = .error (.unknownWord w) ↔ ∀ r ∈ opcodeMap, w &&& r.mask ≠ r.value := by
  refine ⟨fun h r hr hsel => ?_, fun h => ?_⟩
  · obtain ⟨i, hi, -⟩ := decodeWord_of_selected hr hsel
    rw [hi] at h
    cases h
  · cases hd : decodeWord w with
    | ok i =>
      obtain ⟨r, hr, -, hsel⟩ := selected_of_decodeWord hd
      exact absurd hsel (h r hr)
    | error e => rw [decodeWord_error hd]

/-! ### The unknown words, group by group (R77) -/

theorem toNat_fieldOp (w : Word) : (fieldOp w).toNat = w.toNat / 4096 := by
  have := w.isLt
  simp [fieldOp, BitVec.extractLsb'_toNat, Nat.shiftRight_eq_div_pow]
  omega

theorem toNat_fieldN (w : Word) : (fieldN w).toNat = w.toNat % 16 := by simp [fieldN, BitVec.extractLsb'_toNat]

theorem toNat_fieldKK (w : Word) : (fieldKK w).toNat = w.toNat % 256 := by simp [fieldKK, BitVec.extractLsb'_toNat]

theorem decodeGroup0_eq_unknown_iff {w : Word} :
    decodeGroup0 w = .error (.unknownWord w) ↔ w.toNat ≠ 0x00E0 ∧ w.toNat ≠ 0x00EE := by
  unfold decodeGroup0
  split
  · next h => simp [h]
  · split
    · next h => simp [h]
    · simp only [true_iff]
      bv_omega

theorem decodeGroup8_eq_unknown_iff {w : Word} :
    decodeGroup8 w = .error (.unknownWord w) ↔ w.toNat % 16 ∈ [0x8, 0x9, 0xA, 0xB, 0xC, 0xD, 0xF] := by
  rw [← toNat_fieldN]
  unfold decodeGroup8
  split
  case h_10 =>
    simp only [imp_false, List.mem_cons, List.not_mem_nil, or_false, true_iff] at *
    bv_omega
  all_goals next h => simp [h]

theorem decodeGroupE_eq_unknown_iff {w : Word} :
    decodeGroupE w = .error (.unknownWord w) ↔ w.toNat % 256 ∉ [0x9E, 0xA1] := by
  rw [← toNat_fieldKK]
  unfold decodeGroupE
  split
  case h_3 =>
    simp only [imp_false, List.mem_cons, List.not_mem_nil, or_false, true_iff] at *
    bv_omega
  all_goals next h => simp [h]

theorem decodeGroupF_eq_unknown_iff {w : Word} :
    decodeGroupF w = .error (.unknownWord w) ↔
      w.toNat % 256 ∉ [0x07, 0x0A, 0x15, 0x18, 0x1E, 0x29, 0x33, 0x55, 0x65] := by
  rw [← toNat_fieldKK]
  unfold decodeGroupF
  split
  case h_10 =>
    simp only [imp_false, List.mem_cons, List.not_mem_nil, or_false, true_iff] at *
    bv_omega
  all_goals next h => simp [h]

/-- Settles O4, by the group nibble: groups 0, 8, E and F reject as their own decoders do, 5 and 9 by the low nibble,
and the other ten reject nothing. -/
theorem unknownWordsAreTheListedOnes : Obligations.UnknownWordsAreTheListedOnes := by
  intro w
  rw [← toNat_fieldOp]
  unfold decodeWord
  split
  case h_1 h => simp [h, decodeGroup0_eq_unknown_iff]
  case h_9 h => simp [h, decodeGroup8_eq_unknown_iff]
  case h_15 h => simp [h, decodeGroupE_eq_unknown_iff]
  case h_16 h => simp [h, decodeGroupF_eq_unknown_iff]
  case h_6 h | h_10 h =>
    rw [h, ← toNat_fieldN]
    split
    · next hn => simp [hn]
    · next hn => simpa [BitVec.toNat_eq] using hn
  case h_17 =>
    simp only [imp_false] at *
    bv_omega
  all_goals next h => simp [h]

end Sys2Proof
end

section
/-! PROOFS. What each instruction that can raise a diagnostic answers, read from the outcome: when it completes and with
which state, and when it raises which diagnostic (spec/60_exceptions.md R203, R206 to R212). -/

namespace Sys2Proof.Machine

/-! ### The shared checks -/

theorem withAccess_eq_next_iff {n : Nat} {s k t : State} :
    withAccess n s k = .next t ↔ t = k ∧ ∀ r, r < n → s.i.toNat + r ≤ 0xFFF := by
  unfold withAccess
  rw [← accessFault_eq_none]
  cases h : accessFault (baseAddr s) n with
  | none => simp [show accessFault s.i.toNat n = none from h, eq_comm]
  | some a => simp [show accessFault s.i.toNat n = some a from h, raise]

theorem withAccess_eq_fault_iff {n : Nat} {s k : State} {d : Fault} :
    withAccess n s k = .fault d ↔ ∃ a, d = .memoryOutOfRange a ∧ LowestAbove a s.i.toNat n := by
  unfold withAccess
  simp only [← accessFault_eq_some]
  cases h : accessFault (baseAddr s) n with
  | none => simp [show accessFault s.i.toNat n = none from h]
  | some a => simp [show accessFault s.i.toNat n = some a from h, raise, eq_comm]

theorem withKey_of_lt {x : Nibble} {s : State} {f : Bool → Outcome} {k : Fin Config.numKeys}
    (h : k.val = (readV s x).toNat) : withKey x s f = f s.keys[k.val] := by
  have hk : k.val < 16 := k.isLt
  rcases withKey_eq x s f with ⟨j, hj, hw⟩ | ⟨hgt, -⟩
  · rw [hw, Fin.ext (hj.trans h.symm)]
  · omega

theorem withKey_of_gt {x : Nibble} {s : State} {f : Bool → Outcome} (h : 15 < (readV s x).toNat) :
    withKey x s f = .fault (.keyIndexOutOfRange (readV s x)) := by
  rcases withKey_eq x s f with ⟨j, hj, -⟩ | ⟨-, hw⟩
  · have hj16 : j.val < 16 := j.isLt
    omega
  · exact hw

/-- A key skip completes in one of its two ways for a key index up to 15, and raises a diagnostic above it (R210). -/
theorem withKey_next_cases (x : Nibble) (s : State) (f : Bool → State) :
    ((readV s x).toNat ≤ 15 ∧ ∃ c, (withKey x s fun pressed => .next (f pressed)) = .next (f c)) ∨
    (15 < (readV s x).toNat ∧
      (withKey x s fun pressed => .next (f pressed)) = .fault (.keyIndexOutOfRange (readV s x))) := by
  rcases withKey_eq x s fun pressed => .next (f pressed) with ⟨k, hk, hw⟩ | hgt
  · have hk16 : k.val < 16 := k.isLt
    exact .inl ⟨by omega, _, hw⟩
  · exact .inr hgt

theorem withKey_next_eq_fault_iff {x : Nibble} {s : State} {f : Bool → State} {d : Fault} :
    (withKey x s fun pressed => .next (f pressed)) = .fault d ↔
      d = .keyIndexOutOfRange (readV s x) ∧ 15 < (readV s x).toNat := by
  rcases withKey_next_cases x s f with ⟨hle, c, hw⟩ | ⟨hgt, hw⟩
  · simp [hw, hle]
  · simp [hw, hgt, eq_comm]

/-! ### The instructions that complete with one of two states -/

theorem exec_skp (x : Nibble) (s : State) :
    exec (.skp x) s = withKey x s fun pressed => .next (skipIf pressed s) := rfl

theorem exec_sknp (x : Nibble) (s : State) :
    exec (.sknp x) s = withKey x s fun pressed => .next (skipIf (!pressed) s) := rfl

theorem withKey_next {x : Nibble} {s t : State} {f : Bool → State}
    (h : (withKey x s fun pressed => .next (f pressed)) = .next t) : ∃ c, t = f c := by
  rcases withKey_next_cases x s f with ⟨-, c, hw⟩ | ⟨-, hw⟩
  · exact ⟨c, Host.Outcome.next.inj (h.symm.trans hw)⟩
  · cases h.symm.trans hw

theorem exec_skp_next {x : Nibble} {s t : State} (h : exec (.skp x) s = .next t) : ∃ c, t = skipIf c s :=
  withKey_next h

theorem exec_sknp_next {x : Nibble} {s t : State} (h : exec (.sknp x) s = .next t) : ∃ c, t = skipIf c s := by
  obtain ⟨c, hc⟩ := withKey_next (f := fun pressed => skipIf (!pressed) s) h
  exact ⟨!c, hc⟩

theorem exec_wkey (x : Nibble) (s : State) : exec (.wkey x) s = .next (if anyKey s then advance s else s) := rfl

/-! ### Calls and returns -/

theorem exec_call_next {nnn : Addr12} {s t : State} (h : exec (.call nnn) s = .next t) :
    ∃ (k : Fin Config.stackDepth) (q : Fin (Config.stackDepth + 1)), k.val = s.sp.val ∧ q.val = s.sp.val + 1 ∧
      t = jumpTo (addrImm nnn) { s with stack := s.stack.set k.val s.pc k.isLt, sp := q } := by
  rcases execCall_cases nnn s with ⟨k, q, hk, hq, hc⟩ | ⟨-, hc⟩
  · exact ⟨k, q, hk, hq, (Host.Outcome.next.inj (hc.symm.trans h)).symm⟩
  · cases hc.symm.trans h

theorem exec_call_eq_fault_iff {nnn : Addr12} {s : State} {d : Fault} :
    exec (.call nnn) s = .fault d ↔ d = .stackOverflow 16 ∧ s.sp.val = 16 := by
  rcases execCall_cases nnn s with ⟨k, q, hk, hq, hc⟩ | ⟨hsp, hc⟩
  · have hk16 : k.val < 16 := k.isLt
    simp only [exec, hc, reduceCtorEq, false_iff]
    omega
  · simp [exec, hc, hsp, eq_comm]

theorem exec_ret_next {s t : State} (h : exec .ret s = .next t) :
    ∃ (k : Fin Config.stackDepth) (q : Fin (Config.stackDepth + 1)), k.val + 1 = s.sp.val ∧ q.val = k.val ∧
      t = jumpTo (s.stack[k.val] + 2) { s with sp := q } := by
  rcases execRet_cases s with ⟨k, q, hk, hq, hc⟩ | ⟨-, hc⟩
  · exact ⟨k, q, hk, hq, (Host.Outcome.next.inj (hc.symm.trans h)).symm⟩
  · cases hc.symm.trans h

theorem exec_ret_eq_fault_iff {s : State} {d : Fault} :
    exec .ret s = .fault d ↔ d = .stackUnderflow 0 ∧ s.sp.val = 0 := by
  rcases execRet_cases s with ⟨k, q, hk, hq, hc⟩ | ⟨hsp, hc⟩
  · simp only [exec, hc, reduceCtorEq, false_iff]
    omega
  · simp [exec, hc, hsp, eq_comm]

/-! ### Memory instructions -/

theorem exec_ldB_next_iff {x : Nibble} {s t : State} :
    exec (.ldB x) s = .next t ↔ t = advance (writeBytes s s.i.toNat (decimalDigits (readV s x))) ∧
      ∀ r, r < 3 → s.i.toNat + r ≤ 0xFFF := withAccess_eq_next_iff

theorem exec_stRegs_next_iff {x : Nibble} {s t : State} :
    exec (.stRegs x) s = .next t ↔ t = advance (writeBytes s s.i.toNat (firstRegs s x.toNat)) ∧
      ∀ r, r < x.toNat → s.i.toNat + r ≤ 0xFFF := withAccess_eq_next_iff

theorem exec_ldRegs_next_iff {x : Nibble} {s t : State} :
    exec (.ldRegs x) s = .next t ↔ t = advance (writeRegs s 0 (readBytes s s.i.toNat x.toNat)) ∧
      ∀ r, r < x.toNat → s.i.toNat + r ≤ 0xFFF := withAccess_eq_next_iff

theorem pc_of_ldRegs {x : Nibble} {s t : State} (h : exec (.ldRegs x) s = .next t) : t.pc = s.pc + 2 := by
  obtain ⟨rfl, -⟩ := exec_ldRegs_next_iff.1 h
  obtain ⟨v, hv⟩ := writeRegs_eq (readBytes s s.i.toNat x.toNat) s 0
  rw [hv, advance_pc]

/-! ### Sprites -/

theorem exec_drw_next_iff {x y n : Nibble} {s t : State} :
    exec (.drw x y n) s = .next t ↔ t = drwState x y n s ∧ (∀ r, r < n.toNat → s.i.toNat + r ≤ 0xFFF) ∧
      (drwPixels x y n s).find? offGrid = none := by
  rcases execDrw_cases x y n s with ⟨a, ha, hc⟩ | ⟨hr, ⟨p, hp, hc⟩ | ⟨hp, hc⟩⟩
  · have hno : ¬ ∀ r, r < n.toNat → s.i.toNat + r ≤ 0xFFF := by
      rw [← accessFault_eq_none, accessFault_eq_some.2 ha]
      simp
    simp [exec, hc, hno]
  · simp [exec, hc, hp]
  · simp only [exec, hc, hp, and_true, Host.Outcome.next.injEq, eq_comm]
    exact ⟨fun h => ⟨h, hr⟩, And.left⟩

theorem exec_drw_eq_fault_iff {x y n : Nibble} {s : State} {d : Fault} :
    exec (.drw x y n) s = .fault d ↔ (∃ a, d = .memoryOutOfRange a ∧ LowestAbove a s.i.toNat n.toNat) ∨
      ((∀ r, r < n.toNat → s.i.toNat + r ≤ 0xFFF) ∧
        ∃ p, (drwPixels x y n s).find? offGrid = some p ∧ d = .drawOutOfRange p.1 p.2) := by
  simp only [← accessFault_eq_some, ← accessFault_eq_none]
  rcases execDrw_cases x y n s with ⟨a, ha, hc⟩ | ⟨hr, ⟨p, hp, hc⟩ | ⟨hp, hc⟩⟩
  · simp [exec, hc, accessFault_eq_some.2 ha, eq_comm]
  · simp [exec, hc, accessFault_eq_none.2 hr, hp, eq_comm]
  · simp [exec, hc, accessFault_eq_none.2 hr, hp]

/-! ### Every instruction -/

/-- No instruction is refused. -/
theorem exec_next_or_fault (i : Instr) (s : State) : (∃ t, exec i s = .next t) ∨ ∃ d, exec i s = .fault d := by
  cases i with
  | drw x y n =>
    rcases execDrw_cases x y n s with ⟨a, -, hc⟩ | ⟨-, ⟨p, -, hc⟩ | ⟨-, hc⟩⟩
    exacts [.inr ⟨_, hc⟩, .inr ⟨_, hc⟩, .inl ⟨_, hc⟩]
  | call nnn =>
    rcases execCall_cases nnn s with ⟨k, q, -, -, hc⟩ | ⟨-, hc⟩
    exacts [.inl ⟨_, hc⟩, .inr ⟨_, hc⟩]
  | ret =>
    rcases execRet_cases s with ⟨k, q, -, -, hc⟩ | ⟨-, hc⟩
    exacts [.inl ⟨_, hc⟩, .inr ⟨_, hc⟩]
  | skp x =>
    rcases withKey_next_cases x s fun pressed => skipIf pressed s with ⟨-, c, hc⟩ | ⟨-, hc⟩
    exacts [.inl ⟨_, hc⟩, .inr ⟨_, hc⟩]
  | sknp x =>
    rcases withKey_next_cases x s fun pressed => skipIf (!pressed) s with ⟨-, c, hc⟩ | ⟨-, hc⟩
    exacts [.inl ⟨_, hc⟩, .inr ⟨_, hc⟩]
  | ldB x | stRegs x | ldRegs x =>
    rcases withAccess_eq _ s _ with ⟨hc, -⟩ | ⟨a, hc, -⟩
    exacts [.inl ⟨_, hc⟩, .inr ⟨_, hc⟩]
  | _ => exact .inl ⟨_, rfl⟩

end Sys2Proof.Machine
end

section
/-! PROOFS. Which instructions may write each part of the state, read off the frame of every instruction, and what
follows for a step (spec/10_state.md R21 to R32, 60_exceptions.md R200, R201). -/

namespace Sys2Proof.Machine

/-! ### Who may write a part -/

section
variable {i : Instr} {s : State}

theorem mayWrite_index :
    mayWrite i s .index ↔ (∃ nnn, i = .ldI nnn) ∨ (∃ x, i = .addI x) ∨ ∃ x, i = .ldF x := by
  cases i <;> simp [mayWrite]

theorem mayWrite_sp : mayWrite i s .sp ↔ (∃ nnn, i = .call nnn) ∨ i = .ret := by
  cases i <;> simp [mayWrite]

theorem mayWrite_stackEntry {k : Fin Config.stackDepth} :
    mayWrite i s (.stackEntry k) ↔ (∃ nnn, i = .call nnn) ∧ k.val = s.sp.val := by
  cases i <;> simp [mayWrite]

theorem mayWrite_dt : mayWrite i s .dt ↔ ∃ x, i = .ldDtVx x := by
  cases i <;> simp [mayWrite]

theorem mayWrite_st : mayWrite i s .st ↔ ∃ x, i = .ldStVx x := by
  cases i <;> simp [mayWrite]

theorem mayWrite_byte {a : Nat} :
    mayWrite i s (.byte a) ↔ s.i.toNat ≤ a ∧ a ≤ 0xFFF ∧
      ((∃ x, i = .ldB x ∧ a < s.i.toNat + 3) ∨ ∃ x, i = .stRegs x ∧ a < s.i.toNat + x.toNat) := by
  cases i <;> simp [mayWrite, and_comm]

theorem mayWrite_pixel {k : Nat} :
    mayWrite i s (.pixel k) ↔ (i = .cls ∧ k < 2048) ∨ ∃ x y n, i = .drw x y n ∧ Covers s x y n k := by
  cases i <;> simp [mayWrite]

theorem not_mayWrite_key {k : Fin Config.numKeys} : ¬ mayWrite i s (.key k) := by
  cases i <;> simp [mayWrite]

theorem mayWrite_displayFlag : mayWrite i s .displayFlag ↔ i = .cls ∨ ∃ x y n, i = .drw x y n := by
  cases i <;> simp [mayWrite]

theorem not_mayWrite_soundFlag : ¬ mayWrite i s .soundFlag := by
  cases i <;> simp [mayWrite]

theorem mayWrite_draws : mayWrite i s .draws ↔ ∃ x kk, i = .rnd x kk := by
  cases i <;> simp [mayWrite]

theorem not_mayWrite_font : ¬ mayWrite i s .font := by
  cases i <;> simp [mayWrite]

/-- `Fx65` is not among the writers of VF: it loads registers below x, and x is at most 15 (R192). -/
theorem mayWrite_reg_VF :
    mayWrite i s (.reg VF) ↔
      (∃ x y, i = .addReg x y ∨ i = .sub x y ∨ i = .shr x y ∨ i = .subn x y ∨ i = .shl x y) ∨
      (∃ x y n, i = .drw x y n) ∨
      (∃ kk, i = .ldImm VF kk ∨ i = .addImm VF kk ∨ i = .rnd VF kk) ∨
      (∃ y, i = .ldReg VF y ∨ i = .or VF y ∨ i = .and VF y ∨ i = .xor VF y) ∨
      i = .ldVxDt VF := by
  cases i with
  | ldRegs x =>
    have hx := x.isLt
    simp [mayWrite, VF]
    omega
  | _ => simp [mayWrite, eq_comm]

end

/-! ### A step -/

/-- A step that completes ran some fetched instruction. -/
theorem step_eq_next {s t : State} (h : step s = .next t) :
    ∃ i, FetchesInstr s i ∧ exec i (clearFlags s) = .next t := by
  rcases step_cases s with ⟨-, hs⟩ | ⟨-, -, hs⟩ | ⟨i, hi, hs⟩
  · cases hs.symm.trans h
  · cases hs.symm.trans h
  · exact ⟨i, hi, hs.symm.trans h⟩

/-- A part that a completed step changed is one that the instruction may write. -/
theorem mayWrite_of_step {s t : State} {i : Instr} {p : Part} (hi : FetchesInstr s i) (h : step s = .next t)
    (hp : ¬ p.Same (clearFlags s) t) : mayWrite i (clearFlags s) p :=
  by_contra fun hno => hp (exec_frame i _ t (step_eq_exec hi ▸ h) p hno)

/-- The two flags at entry have no part in a step. -/
theorem step_clearFlags (s : State) : step (clearFlags s) = step s := rfl

/-- Settles O6: the two bytes at pc are the word fetched. -/
theorem stepRunsTheDecodedInstruction : Obligations.StepRunsTheDecodedInstruction :=
  fun _ _ hlo hhi hd => step_eq_exec ⟨_, ⟨hlo, hhi, rfl⟩, hd⟩

/-- Settles O8: a fetch that fails is a diagnostic, and no instruction is refused. -/
theorem stepNeverRefuses : Obligations.StepNeverRefuses := by
  intro s
  rcases step_cases s with ⟨-, hs⟩ | ⟨-, -, hs⟩ | ⟨i, -, hs⟩
  · exact .inr ⟨_, hs⟩
  · exact .inr ⟨_, hs⟩
  · rw [hs]
    exact exec_next_or_fault i _

theorem stepReport_of_fault {s : State} {d : Fault} (h : step s = .fault d) :
    stepReport s = (clearFlags s, some d) := by
  simp [stepReport, h, afterDiagnostic]

/-- Clearing the flags touches no other part. -/
theorem keepsAllBut_clearFlags (s : State) :
    KeepsAllBut (fun p => p = .displayFlag ∨ p = .soundFlag) s (clearFlags s) := by
  intro p hp
  cases p with
  | displayFlag => exact absurd (.inl rfl) hp
  | soundFlag => exact absurd (.inr rfl) hp
  | _ => rfl

/-- Settles O9: a failing step leaves the entry state with the flags cleared, and a step does not see the flags. -/
theorem diagnosticLeavesTheStateAndRepeats : Obligations.DiagnosticLeavesTheStateAndRepeats := by
  intro s d h
  rw [stepReport_of_fault h]
  exact ⟨rfl, rfl, rfl, keepsAllBut_clearFlags s, (step_clearFlags s).trans h⟩

/-- The two display instructions leave display_flag set (R31). -/
theorem displayFlag_of_display {i : Instr} {s t : State} (hi : i = .cls ∨ ∃ x y n, i = .drw x y n)
    (h : exec i s = .next t) : t.displayFlag = true := by
  rcases hi with rfl | ⟨x, y, n, rfl⟩
  · cases h
    rfl
  · rw [(exec_drw_next_iff.1 h).1]
    rfl

/-- Settles O10: a step clears both flags first, no instruction writes sound_flag, and only the two display
instructions write display_flag, which they set. -/
theorem outputFlagsAfterAStep : Obligations.OutputFlagsAfterAStep := by
  refine ⟨fun _ _ _ => rfl, fun s t i hi h => ⟨?_, ?_⟩⟩
  · exact by_contra fun hne => not_mayWrite_soundFlag (mayWrite_of_step (p := .soundFlag) hi h hne)
  · refine ⟨fun ht => ?_, fun hd => displayFlag_of_display hd (step_eq_exec hi ▸ h)⟩
    exact mayWrite_displayFlag.1 (mayWrite_of_step (p := .displayFlag) hi h (by simp [Part.Same, ht]))

/-! ### What only some instructions may write -/

/-- Settles O11, from the writers of the two timers. -/
theorem stepMovesTimersOnlyByTheirLoads : Obligations.StepMovesTimersOnlyByTheirLoads := by
  refine fun s t i hi h => ⟨fun hne => ?_, fun hne => ?_⟩
  · obtain ⟨x, rfl⟩ := mayWrite_dt.1 (mayWrite_of_step (p := .dt) hi h hne)
    rw [step_eq_exec hi] at h
    cases h
    exact ⟨x, rfl, rfl⟩
  · obtain ⟨x, rfl⟩ := mayWrite_st.1 (mayWrite_of_step (p := .st) hi h hne)
    rw [step_eq_exec hi] at h
    cases h
    exact ⟨x, rfl, rfl⟩

/-- Settles O12: no instruction may write a key or the font, and only Cxkk the count of draws. -/
theorem stepNeverWritesItsInputs : Obligations.StepNeverWritesItsInputs := by
  refine fun s t i hi h => ⟨Vector.ext fun k hk => ?_, ?_, fun hne => ?_⟩
  · exact by_contra fun hne => not_mayWrite_key (mayWrite_of_step (p := .key ⟨k, hk⟩) hi h hne)
  · exact by_contra fun hne => not_mayWrite_font (mayWrite_of_step (p := .font) hi h hne)
  · exact mayWrite_draws.1 (mayWrite_of_step (p := .draws) hi h hne)

/-- Settles O13: only calls and returns may write sp, each moving it by 1, and only a call an entry, the one at sp. -/
theorem stackMovesOnlyByCallAndReturn : Obligations.StackMovesOnlyByCallAndReturn := by
  refine fun s t i hi h => ⟨fun hne => ?_, fun k hne => ?_⟩
  · have hw := mayWrite_sp.1 (mayWrite_of_step (p := .sp) hi h hne)
    rw [step_eq_exec hi] at h
    rcases hw with ⟨nnn, rfl⟩ | rfl
    · obtain ⟨k, q, -, hq, rfl⟩ := exec_call_next h
      exact .inl ⟨⟨nnn, rfl⟩, hq⟩
    · obtain ⟨k, q, hk, hq, rfl⟩ := exec_ret_next h
      exact .inr ⟨rfl, (congrArg (· + 1) hq).trans hk⟩
  · exact mayWrite_stackEntry.1 (mayWrite_of_step (p := .stackEntry k) hi h hne)

/-- Settles O14, from the writers of a byte. -/
theorem memoryIsWrittenOnlyByItsStores : Obligations.MemoryIsWrittenOnlyByItsStores :=
  fun _ _ _ a hi h hne => mayWrite_byte.1 (mayWrite_of_step (p := .byte a) hi h hne)

/-- Settles O15, from the writers of a pixel; a pixel that changed is one of the 2048, since the others read 0. -/
theorem framebufferChangesOnlyByDisplayInstructions : Obligations.FramebufferChangesOnlyByDisplayInstructions := by
  intro s t i k hi h hne
  refine ⟨Nat.lt_of_not_le fun hk => hne ((pixel_big t hk).trans (pixel_big s hk).symm), ?_⟩
  rcases mayWrite_pixel.1 (mayWrite_of_step (p := .pixel k) hi h hne) with ⟨rfl, -⟩ | hdrw
  · rw [step_eq_exec hi] at h
    cases h
    exact .inl ⟨rfl, BitVec.getLsbD_zero⟩
  · exact .inr hdrw

/-- Only Fx1E takes I above 0xFFF: the other writers of I load a 12-bit address or five times a byte (R162). -/
theorem addI_of_index_above {i : Instr} {s t : State} (h : exec i s = .next t) (hs : s.i.toNat ≤ 0xFFF)
    (ht : 0xFFF < t.i.toNat) : ∃ x, i = .addI x := by
  have hne : t.i ≠ s.i := fun heq => by rw [heq] at ht; omega
  rcases mayWrite_index.1 (by_contra fun hno => hne (exec_frame i s t h .index hno)) with ⟨nnn, rfl⟩ | hadd | ⟨x, rfl⟩
  · cases h
    have hn := nnn.isLt
    simp only [advance_i, writeI_i, addrImm_toNat] at ht
    omega
  · exact hadd
  · cases h
    have hx := (readV s x).isLt
    simp only [advance_i, writeI_i, glyphAddr_toNat] at ht
    omega

/-- Settles O16, from the writers of I and the bounds on what they write. -/
theorem indexIsWrittenOnlyByItsInstructions : Obligations.IndexIsWrittenOnlyByItsInstructions := by
  refine fun s t i hi h => ⟨fun hne => mayWrite_index.1 (mayWrite_of_step (p := .index) hi h hne), ?_⟩
  rw [step_eq_exec hi] at h
  exact addI_of_index_above (s := clearFlags s) h

/-- Settles O17, from the writers of VF. -/
theorem vFIsWrittenOnlyAsFlagOrDestination : Obligations.VFIsWrittenOnlyAsFlagOrDestination :=
  fun _ _ _ hi h hne => mayWrite_reg_VF.1 (mayWrite_of_step (p := .reg VF) hi h hne)

/-! ### The program counter -/

theorem skipIf_pc_or (c : Bool) (s : State) : (skipIf c s).pc = s.pc + 2 ∨ (skipIf c s).pc = s.pc + 4 := by
  cases c with
  | false => exact .inl (by simp)
  | true => exact .inr (by simp)

theorem jpV0_target_toNat (nnn : Addr12) (b : Byte) : (addrImm nnn + wordOfByte b).toNat = nnn.toNat + b.toNat := by
  have hn := nnn.isLt
  have hb := b.isLt
  rw [BitVec.toNat_add, addrImm_toNat, wordOfByte_toNat]
  omega

/-- Settles O18, instruction by instruction: the state that each leaves names its pc. -/
theorem stepLeavesPcInOneOfTheListedWays : Obligations.StepLeavesPcInOneOfTheListedWays := by
  intro s t i hi h
  rw [step_eq_exec hi] at h
  cases i with
  | seImm | sneImm | seReg | sneReg => cases h; exact skipIf_pc_or _ (clearFlags s)
  | skp => obtain ⟨c, rfl⟩ := exec_skp_next h; exact skipIf_pc_or c (clearFlags s)
  | sknp => obtain ⟨c, rfl⟩ := exec_sknp_next h; exact skipIf_pc_or c (clearFlags s)
  | jp nnn => cases h; exact addrImm_toNat nnn
  | call nnn => obtain ⟨k, q, -, -, rfl⟩ := exec_call_next h; exact addrImm_toNat nnn
  | jpV0 nnn => cases h; exact jpV0_target_toNat nnn _
  | ret => obtain ⟨k, q, hk, -, rfl⟩ := exec_ret_next h; exact ⟨k, hk, rfl⟩
  | wkey x =>
    cases h
    by_cases hk : anyKey s = true
    · exact .inl ⟨by simp [hk], (anyKey_iff s).1 hk⟩
    · exact .inr ⟨by simp [hk], fun k => by simpa using fun hp => hk ((anyKey_iff s).2 ⟨k, hp⟩)⟩
  | drw x y n => rw [(exec_drw_next_iff.1 h).1]; rfl
  | ldB x => rw [(exec_ldB_next_iff.1 h).1]; rfl
  | stRegs x => rw [(exec_stRegs_next_iff.1 h).1]; rfl
  | ldRegs x => exact pc_of_ldRegs (s := clearFlags s) h
  | _ => cases h; rfl

end Sys2Proof.Machine
end

section
/-! PROOFS. The table of causes (spec/60_exceptions.md R203 to R212): each instruction raises exactly its own
diagnostics, and a step those of the fetch, of the decoding and of the instruction fetched. -/

namespace Sys2Proof.Machine

/-! ### The diagnostics of an instruction -/

/-- When an instruction entered in `s` raises a diagnostic: the rows of R203 that are not of the fetch or the
decoding. -/
def RaisedBy (i : Instr) (s : State) : Fault → Prop
  | .fetchOutOfRange _ | .unknownInstruction _ => False
  | .memoryOutOfRange a => LowestAbove a s.i.toNat (dataBytes i)
  | .stackOverflow d => (∃ nnn, i = .call nnn) ∧ s.sp.val = 16 ∧ d = 16
  | .stackUnderflow d => i = .ret ∧ s.sp.val = 0 ∧ d = 0
  | .drawOutOfRange col row => ∃ x y n, i = .drw x y n ∧ (∀ q, q < n.toNat → s.i.toNat + q ≤ 0xFFF) ∧
      (drwPixels x y n s).find? offGrid = some (col, row)
  | .keyIndexOutOfRange v => ∃ x, (i = .skp x ∨ i = .sknp x) ∧ v = readV s x ∧ 15 < v.toNat

theorem not_lowestAbove_zero {a base : Nat} : ¬ LowestAbove a base 0 := by simp [LowestAbove]

/-- The first pixel outside the grid, in the terms of the sprite's rows and columns (R209, R212). -/
theorem find_drwPixels_eq_some {x y n : Nibble} {s : State} {col row : Nat} :
    (drwPixels x y n s).find? offGrid = some (col, row) ↔
      ∃ r c, SpriteBit s n r c ∧ OutsideGrid s x y r c ∧ col = (readV s x).toNat + c ∧ row = (readV s y).toNat + r ∧
        ∀ r' c', SpriteBit s n r' c' → OutsideGrid s x y r' c' → r < r' ∨ (r = r' ∧ c ≤ c') := by
  rw [find_offGrid_eq_some (drwPixels_pairwise x y n s)]
  constructor
  · rintro ⟨hp, ho, hfirst⟩
    obtain ⟨r, c, hb, hrc⟩ := mem_drwPixels.1 hp
    obtain ⟨rfl, rfl⟩ := Prod.mk.inj hrc
    refine ⟨r, c, hb, offGrid_eq_true.1 ho, rfl, rfl, fun r' c' hb' ho' => ?_⟩
    have hq := hfirst _ (mem_drwPixels.2 ⟨r', c', hb', rfl⟩) (offGrid_eq_true.2 ho')
    simp only [RowColLt, Prod.mk.injEq] at hq
    omega
  · rintro ⟨r, c, hb, ho, rfl, rfl, hfirst⟩
    refine ⟨mem_drwPixels.2 ⟨r, c, hb, rfl⟩, offGrid_eq_true.2 ho, fun q hq hoq => ?_⟩
    obtain ⟨r', c', hb', rfl⟩ := mem_drwPixels.1 hq
    have hle := hfirst r' c' hb' (offGrid_eq_true.1 hoq)
    simp only [RowColLt, Prod.mk.injEq]
    omega

/-- An instruction raises a diagnostic exactly when its own check says so. -/
theorem exec_eq_fault_iff {i : Instr} {s : State} {d : Fault} : exec i s = .fault d ↔ RaisedBy i s d := by
  cases i with
  | call nnn =>
    rw [exec_call_eq_fault_iff]
    cases d <;> simp [RaisedBy, dataBytes, not_lowestAbove_zero, and_comm]
  | ret =>
    rw [exec_ret_eq_fault_iff]
    cases d <;> simp [RaisedBy, dataBytes, not_lowestAbove_zero, and_comm]
  | skp x =>
    rw [exec_skp, withKey_next_eq_fault_iff]
    cases d <;> simp +contextual [RaisedBy, dataBytes, not_lowestAbove_zero, iff_def]
  | sknp x =>
    rw [exec_sknp, withKey_next_eq_fault_iff (f := fun pressed => skipIf (!pressed) s)]
    cases d <;> simp +contextual [RaisedBy, dataBytes, not_lowestAbove_zero, iff_def]
  | drw x y n =>
    rw [exec_drw_eq_fault_iff]
    cases d <;> simp [RaisedBy, dataBytes]
  | ldB x | stRegs x | ldRegs x =>
    refine withAccess_eq_fault_iff.trans ?_
    cases d <;> simp [RaisedBy, dataBytes]
  | _ =>
    refine iff_of_false (fun h => by cases h) ?_
    cases d <;> simp [RaisedBy, dataBytes, not_lowestAbove_zero]

/-! ### The diagnostics of a step -/

theorem faultCondition_of_raisedBy {i : Instr} {s : State} {d : Fault} (hi : FetchesInstr s i)
    (h : RaisedBy i (clearFlags s) d) : FaultCondition s d := by
  cases d with
  | fetchOutOfRange | unknownInstruction => exact h.elim
  | memoryOutOfRange a => exact ⟨i, hi, h⟩
  | stackOverflow d => obtain ⟨⟨nnn, rfl⟩, h⟩ := h; exact ⟨⟨nnn, hi⟩, h⟩
  | stackUnderflow d => obtain ⟨rfl, h⟩ := h; exact ⟨hi, h⟩
  | drawOutOfRange col row =>
    obtain ⟨x, y, n, rfl, hr, hp⟩ := h
    obtain ⟨r, c, h⟩ := find_drwPixels_eq_some.1 hp
    exact ⟨x, y, n, r, c, hi, hr, h⟩
  | keyIndexOutOfRange v =>
    obtain ⟨x, rfl | rfl, h⟩ := h
    · exact ⟨x, .inl hi, h⟩
    · exact ⟨x, .inr hi, h⟩

/-- Beside the fetch's two diagnostics the causes are those of the instruction fetched. -/
theorem faultCondition_cases {s : State} {d : Fault} (h : FaultCondition s d) :
    (d = .fetchOutOfRange s.pc ∧ fetchable s.pc = false) ∨
    (d = .unknownInstruction (fetchWord s) ∧ fetchable s.pc = true ∧
      decodeWord (fetchWord s) = .error (.unknownWord (fetchWord s))) ∨
    ∃ i, FetchesInstr s i ∧ RaisedBy i (clearFlags s) d := by
  cases d with
  | fetchOutOfRange p =>
    obtain ⟨rfl, hp⟩ := h
    refine .inl ⟨rfl, ?_⟩
    rw [← Bool.not_eq_true, fetchable_iff]
    omega
  | unknownInstruction w =>
    obtain ⟨hw, hrow⟩ := h
    obtain ⟨hf, rfl⟩ := fetches_iff.1 hw
    exact .inr (.inl ⟨rfl, hf, decodeWord_eq_unknown_iff.2 hrow⟩)
  | memoryOutOfRange a => obtain ⟨i, hi, h⟩ := h; exact .inr (.inr ⟨i, hi, h⟩)
  | stackOverflow d => obtain ⟨⟨nnn, hi⟩, h⟩ := h; exact .inr (.inr ⟨_, hi, ⟨nnn, rfl⟩, h⟩)
  | stackUnderflow d => obtain ⟨hi, h⟩ := h; exact .inr (.inr ⟨_, hi, rfl, h⟩)
  | drawOutOfRange col row =>
    obtain ⟨x, y, n, r, c, hi, hr, h⟩ := h
    exact .inr (.inr ⟨_, hi, x, y, n, rfl, hr, find_drwPixels_eq_some.2 ⟨r, c, h⟩⟩)
  | keyIndexOutOfRange v =>
    obtain ⟨x, hi | hi, h⟩ := h
    · exact .inr (.inr ⟨_, hi, x, .inl rfl, h⟩)
    · exact .inr (.inr ⟨_, hi, x, .inr rfl, h⟩)

/-- Settles O7: a step answers the fetch's diagnostic, the decoding's or those of the instruction fetched, and the
conditions of the three exclude each other. -/
theorem stepFaultsExactlyAsTheCausesSay : Obligations.StepFaultsExactlyAsTheCausesSay := by
  refine fun s d => ⟨fun h => ?_, fun h => ?_⟩
  · rcases step_cases s with ⟨hf, hs⟩ | ⟨hf, hd, hs⟩ | ⟨i, hi, hs⟩
    · obtain rfl := Host.Outcome.fault.inj (hs.symm.trans h)
      refine ⟨rfl, ?_⟩
      rw [← Bool.not_eq_true, fetchable_iff] at hf
      omega
    · obtain rfl := Host.Outcome.fault.inj (hs.symm.trans h)
      exact ⟨fetches_iff.2 ⟨hf, rfl⟩, decodeWord_eq_unknown_iff.1 hd⟩
    · exact faultCondition_of_raisedBy hi (exec_eq_fault_iff.1 (hs.symm.trans h))
  · rcases faultCondition_cases h with ⟨rfl, hf⟩ | ⟨rfl, hf, hd⟩ | ⟨i, hi, hr⟩
    · simp [step, fetchDecode, hf, raise]
    · simp [step, fetchDecode, hf, hd, raise]
    · rw [step_eq_exec hi]
      exact exec_eq_fault_iff.2 hr

end Sys2Proof.Machine
end

section
/-! PROOFS. The host's operations `reset`, `set_key` and `tick_timers` (spec/10_state.md R37, R39, 47_timers.md R184,
R186), one tick and any number of them. -/

namespace Sys2Proof.Machine

/-! ### Frames compose -/

theorem keepsAllBut_refl (changed : Part → Prop) (s : State) : KeepsAllBut changed s s := by
  intro p _
  cases p <;> rfl

theorem KeepsAllBut.trans {changed : Part → Prop} {s t u : State} (h : KeepsAllBut changed s t)
    (h' : KeepsAllBut changed t u) : KeepsAllBut changed s u := by
  intro p hp
  have h1 := h p hp
  have h2 := h' p hp
  cases p <;> exact h2.trans h1

/-! ### Reset -/

theorem readMem_resetWith (font : Font) (n a : Nat) : readMem (resetWith font n) a = initialByte font a := rfl

/-- Settles O22: both states are a reset state, whose memory holds the reset contents of its own font. -/
theorem resetGivesEveryItemItsValue : Obligations.ResetGivesEveryItemItsValue := by
  intro r hr
  obtain ⟨font, n, rfl⟩ : ∃ font n, r = resetWith font n := by
    rcases hr with rfl | ⟨s, rfl⟩
    exacts [⟨_, _, rfl⟩, ⟨_, _, rfl⟩]
  refine ⟨fun x => ?_, rfl, rfl, rfl, fun k => ?_, rfl, rfl, fun g q => ?_, fun a ha => ?_, fun k => ?_, fun k => ?_,
    rfl, rfl⟩
  · exact Vector.getElem_replicate _
  · exact Vector.getElem_replicate _
  · rw [readMem_resetWith]
    exact initialByte_font font g q
  · rw [readMem_resetWith]
    exact initialByte_above font ha
  · exact BitVec.getLsbD_zero
  · exact Vector.getElem_replicate _

/-! ### Keys -/

/-- Settles O25: the key written reads back, and the others are other entries of the vector. -/
theorem setKeyWritesOneKey : Obligations.SetKeyWritesOneKey := by
  refine fun k b s => ⟨Vector.getElem_set_self _, fun p hp => ?_⟩
  cases p with
  | key j => exact Vector.getElem_set_ne k.isLt j.isLt fun hkj => hp (congrArg Part.key (Fin.ext hkj.symm))
  | _ => rfl

/-! ### Timers -/

/-- A timer after a tick: one less, and 0 stays 0 (R184). -/
def countDown (b : Byte) : Byte := if b = 0 then b else b - 1

theorem toNat_countDown (b : Byte) : (countDown b).toNat = b.toNat - 1 := by
  unfold countDown
  split
  · next h => simp [h]
  · bv_omega

theorem tickDelay_eq (s : State) : tickDelay s = { s with dt := countDown s.dt } := by
  unfold tickDelay countDown
  split <;> rfl

theorem tickSound_eq (s : State) :
    tickSound s = { s with soundFlag := s.soundFlag || decide (0 < s.st.toNat), st := countDown s.st } := by
  unfold tickSound countDown
  split
  · next h =>
    have hzero : ¬ 0 < s.st.toNat := by simp [h]
    simp only [hzero, decide_false, Bool.or_false]
  · next h =>
    have hpos : 0 < s.st.toNat := by bv_omega
    simp only [hpos, decide_true, Bool.or_true]

/-- Everything a tick does (R184; log 26). -/
theorem tickTimers_eq (s : State) : tickTimers s =
    { s with dt := countDown s.dt, st := countDown s.st, soundFlag := s.soundFlag || decide (0 < s.st.toNat) } := by
  rw [tickTimers, tickSound_eq, tickDelay_eq]

theorem keepsAllBut_tickTimers (s : State) :
    KeepsAllBut (fun p => p = .dt ∨ p = .st ∨ p = .soundFlag) s (tickTimers s) := by
  rw [tickTimers_eq]
  intro p hp
  cases p with
  | dt => exact absurd (.inl rfl) hp
  | st => exact absurd (.inr (.inl rfl)) hp
  | soundFlag => exact absurd (.inr (.inr rfl)) hp
  | _ => rfl

theorem toNat_tickTimers_dt (s : State) : (tickTimers s).dt.toNat = s.dt.toNat - 1 := by
  rw [tickTimers_eq]
  exact toNat_countDown s.dt

theorem toNat_tickTimers_st (s : State) : (tickTimers s).st.toNat = s.st.toNat - 1 := by
  rw [tickTimers_eq]
  exact toNat_countDown s.st

theorem tickTimers_soundFlag (s : State) : (tickTimers s).soundFlag = (s.soundFlag || decide (0 < s.st.toNat)) := by
  rw [tickTimers_eq]

/-- Settles O23, from the equation of a tick. -/
theorem tickTimersCountsDownAndSounds : Obligations.TickTimersCountsDownAndSounds := fun s =>
  ⟨toNat_tickTimers_dt s, toNat_tickTimers_st s, tickTimers_soundFlag s, keepsAllBut_tickTimers s⟩

theorem ticks_succ (k : Nat) (s : State) : ticks (k + 1) s = ticks k (tickTimers s) := rfl

/-- Settles O24, by induction on the number of ticks: the first tick is one of O23 and the rest start where it ends. -/
theorem ticksCountDownToZero : Obligations.TicksCountDownToZero := by
  intro k
  induction k with
  | zero => exact fun s => ⟨rfl, rfl, by simp [ticks, performAll], keepsAllBut_refl _ s⟩
  | succ k ih =>
    intro s
    obtain ⟨hdt, hst, hsound, hkeep⟩ := ih (tickTimers s)
    rw [ticks_succ]
    refine ⟨?_, ?_, ?_, (keepsAllBut_tickTimers s).trans hkeep⟩
    · rw [hdt, toNat_tickTimers_dt]
      omega
    · rw [hst, toNat_tickTimers_st]
      omega
    · rw [hsound, tickTimers_soundFlag, toNat_tickTimers_st, Bool.or_assoc]
      congr 1
      by_cases hpos : 0 < s.st.toNat <;> simp [hpos]
      omega

end Sys2Proof.Machine
end

section
/-! PROOFS. Memory stays canonical: what every instruction, every operation of the host and every list of them does to
the list of cells (spec/20_memory.md R52 to R54, 60_exceptions.md R223; log 21). -/

namespace Sys2Proof.Machine

/-! ### Instructions -/

/-- An access of at least one byte that passed its check lies inside the 4096 bytes (R53, R56). -/
theorem access_within {base n : Nat} (h : ∀ r, r < n → base + r ≤ 0xFFF) (hn : n ≠ 0) : base + n ≤ 4096 := by
  have := h (n - 1) (by omega)
  omega

/-- No instruction writes the parameter `FONT`. -/
theorem exec_font {i : Instr} {s t : State} (h : exec i s = .next t) : t.font = s.font :=
  exec_frame i s t h .font not_mayWrite_font

/-- What an instruction leaves in memory: the cells as they were, or one store of bytes inside the address space. -/
theorem exec_mem_cases {i : Instr} {s t : State} (h : exec i s = .next t) :
    t.mem = s.mem ∨ ∃ a bs, (a + bs.length ≤ 4096 ∨ bs = []) ∧ t.mem = Memory.writeBytes s.font s.mem a bs := by
  cases i with
  | ldB x =>
    obtain ⟨rfl, hr⟩ := exec_ldB_next_iff.1 h
    exact .inr ⟨_, _, .inl (access_within (n := 3) hr (by decide)), rfl⟩
  | stRegs x =>
    obtain ⟨rfl, hr⟩ := exec_stRegs_next_iff.1 h
    refine .inr ⟨_, _, ?_, rfl⟩
    by_cases hx : x.toNat = 0
    · exact .inr (by simp [firstRegs, hx])
    · exact .inl (by simpa using access_within hr hx)
  | ldRegs x =>
    obtain ⟨rfl, -⟩ := exec_ldRegs_next_iff.1 h
    obtain ⟨v, hv⟩ := writeRegs_eq (readBytes s s.i.toNat x.toNat) s 0
    exact .inl (by rw [hv, advance_mem])
  | drw x y n => obtain ⟨rfl, -⟩ := exec_drw_next_iff.1 h; exact .inl rfl
  | call nnn => obtain ⟨k, q, -, -, rfl⟩ := exec_call_next h; exact .inl rfl
  | ret => obtain ⟨k, q, -, -, rfl⟩ := exec_ret_next h; exact .inl rfl
  | skp x => obtain ⟨c, rfl⟩ := exec_skp_next h; exact .inl rfl
  | sknp x => obtain ⟨c, rfl⟩ := exec_sknp_next h; exact .inl rfl
  | wkey x => cases h; exact .inl (by split <;> rfl)
  | _ => cases h; exact .inl rfl

/-- Settles O19: an instruction leaves the cells or stores inside the address space, which keeps the form. -/
theorem stepKeepsMemoryCanonical : Obligations.StepKeepsMemoryCanonical := by
  intro s t hw h
  obtain ⟨i, -, hx⟩ := step_eq_next h
  rw [exec_font hx, clearFlags_font]
  rcases exec_mem_cases hx with hm | ⟨a, bs, hbs, hm⟩
  · rw [hm]
    exact hw
  · rw [hm]
    exact Memory.wf_writeBytes hbs hw

/-! ### Operations of the host -/

theorem step_font {s t : State} (h : step s = .next t) : t.font = s.font := by
  obtain ⟨i, -, hx⟩ := step_eq_next h
  exact exec_font (s := clearFlags s) hx

/-- What a step leaves for the host is its next state, or its entry state with the flags cleared (R201). -/
theorem stepReport_cases (s : State) :
    (∃ t, step s = .next t ∧ stepReport s = (t, none)) ∨ ∃ d, stepReport s = (clearFlags s, some d) := by
  rcases stepNeverRefuses s with ⟨t, ht⟩ | ⟨d, hd⟩
  · exact .inl ⟨t, ht, by simp [stepReport, ht]⟩
  · exact .inr ⟨d, stepReport_of_fault hd⟩

/-- Memory is canonical for the parameter `FONT` that the state holds, and that parameter is `font`. -/
def CanonicalFor (font : Font) (s : State) : Prop := s.font = font ∧ Memory.wf s.font s.mem = true

/-- Each operation keeps memory canonical: a reset empties the list of cells, a program that fits is stored inside the
address space, a completed step keeps the form, and the rest touch no cell. -/
theorem perform_keeps_canonical {font : Font} {s : State} (o : Operation) (h : CanonicalFor font s) :
    CanonicalFor font (perform o s).1 := by
  cases o with
  | reset => exact ⟨h.1, Memory.wf_nil _⟩
  | loadProgram bytes =>
    by_cases hlen : bytes.length ≤ 3584
    · simp only [perform, loadProgram_of_fits s hlen]
      exact ⟨h.1, Memory.wf_writeBytes (.inl (by simp; omega)) h.2⟩
    · simpa only [perform, loadProgram_of_too_long s (Nat.lt_of_not_le hlen)] using h
  | setKey k b => exact h
  | step =>
    rcases stepReport_cases s with ⟨t, ht, hr⟩ | ⟨d, hr⟩
    · simp only [perform, hr]
      exact ⟨(step_font ht).trans h.1, stepKeepsMemoryCanonical s t h.2 ht⟩
    · simp only [perform, hr]
      exact h
  | tickTimers =>
    simp only [perform, tickTimers_eq]
    exact h

theorem performAll_keeps_canonical {font : Font} (ops : List Operation) {s : State} (h : CanonicalFor font s) :
    CanonicalFor font (performAll ops s) := by
  induction ops generalizing s with
  | nil => exact h
  | cons o rest ih => exact ih (perform_keeps_canonical o h)

/-- Settles O21, by induction on the list of operations. -/
theorem everyScheduleKeepsMemoryCanonical : Obligations.EveryScheduleKeepsMemoryCanonical := by
  intro ops s hw
  obtain ⟨hf, hm⟩ := performAll_keeps_canonical ops (⟨rfl, hw⟩ : CanonicalFor s.font s)
  exact ⟨hm, hf⟩

/-- Settles O20: a reset leaves no cell. -/
theorem resetMemoryIsCanonical : Obligations.ResetMemoryIsCanonical :=
  ⟨Memory.wf_nil _, fun _ => Memory.wf_nil _⟩

end Sys2Proof.Machine
end

section
/-! PROOFS. No instruction reads the sound timer (spec/10_state.md R27): every instruction but Fx18 commutes with a
change of st, and Fx18 forgets it. -/

namespace Sys2Proof.Machine

/-- The state with the sound timer at `v`. -/
def withSt (v : Byte) (s : State) : State := { s with st := v }

/-! ### The shared operations -/

theorem mapNext_withAccess (f : State → State) (n : Nat) (s k : State) :
    mapNext f (withAccess n s k) = withAccess n s (f k) := by
  unfold withAccess
  split <;> rfl

theorem writeRegs_withSt (v : Byte) (bs : List Byte) (s : State) (k : Nat) :
    writeRegs (withSt v s) k bs = withSt v (writeRegs s k bs) := by
  induction bs generalizing s k with
  | nil => rfl
  | cons b rest ih => exact ih (writeV s (BitVec.ofNat 4 k) b) (k + 1)

/-! ### The instructions -/

/-- An instruction other than Fx18 does in the state with another st what it does in the state, and leaves that st. -/
theorem exec_withSt {i : Instr} (v : Byte) (s : State) (hi : ∀ x, i ≠ .ldStVx x) :
    exec i (withSt v s) = mapNext (withSt v) (exec i s) := by
  cases i with
  | ldStVx x => exact absurd rfl (hi x)
  | ldB x | stRegs x => symm; exact mapNext_withAccess _ _ s _
  | ldRegs x =>
    refine Eq.trans ?_ (mapNext_withAccess _ _ s _).symm
    exact congrArg (fun t => withAccess x.toNat s (advance t)) (writeRegs_withSt v _ s 0)
  | drw x y n =>
    rcases exec_next_or_fault (.drw x y n) s with ⟨t, ht⟩ | ⟨d, hd⟩
    · obtain ⟨rfl, h⟩ := exec_drw_next_iff.1 ht
      rw [ht]
      exact exec_drw_next_iff.2 ⟨rfl, h⟩
    · have h := exec_drw_eq_fault_iff.1 hd
      rw [hd]
      exact exec_drw_eq_fault_iff.2 h
  | call | ret | skp | sknp => symm; exact apply_dite _ _ _ _
  | wkey x => symm; exact congrArg Host.Outcome.next (apply_ite (withSt v) _ _ _)
  | _ => rfl

/-- Fx18 writes st and reads it nowhere. -/
theorem exec_ldStVx_withSt (x : Nibble) (v : Byte) (s : State) :
    exec (.ldStVx x) (withSt v s) = exec (.ldStVx x) s := rfl

/-- No cause of a diagnostic is in st. -/
theorem step_withSt_of_fault (v : Byte) {s : State} {d : Fault} (h : step s = .fault d) :
    step (withSt v s) = .fault d := by
  have hc := (stepFaultsExactlyAsTheCausesSay s d).1 h
  exact (stepFaultsExactlyAsTheCausesSay (withSt v s) d).2 hc

/-- Settles O54: fetching does not read st, so both states run the same instruction, which forgets st or commutes with
it, and both meet the same diagnostics. -/
theorem noInstructionReadsTheSoundTimer : Obligations.NoInstructionReadsTheSoundTimer := by
  refine fun s v => ⟨fun ⟨x, hx⟩ => ?_, fun hno => ?_⟩
  · have hv : FetchesInstr (withSt v s) (.ldStVx x) := hx
    exact (step_eq_exec hv).trans ((exec_ldStVx_withSt x v (clearFlags s)).trans (step_eq_exec hx).symm)
  · change step (withSt v s) = mapNext (withSt v) (step s)
    rcases stepNeverRefuses s with ⟨t, ht⟩ | ⟨d, hd⟩
    · obtain ⟨i, hi, -⟩ := step_eq_next ht
      have hv : FetchesInstr (withSt v s) i := hi
      rw [step_eq_exec hi, step_eq_exec hv]
      exact exec_withSt v (clearFlags s) fun x hx => hno x (hx ▸ hi)
    · rw [hd, step_withSt_of_fault v hd]
      rfl

end Sys2Proof.Machine
end

section
/-! PROOFS. Control flow (spec/41_control_flow.md R110 to R113) and the end of a run (70_reset_and_hazards.md R249). -/

namespace Sys2Proof.Machine

theorem exec_jp (nnn : Addr12) (s : State) : exec (.jp nnn) s = .next (jumpTo (addrImm nnn) s) := rfl

theorem exec_jpV0 (nnn : Addr12) (s : State) :
    exec (.jpV0 nnn) s = .next (jumpTo (addrImm nnn + wordOfByte (readV s 0)) s) := rfl

/-- A jump's frame. -/
theorem keepsAllBut_jumpTo (a : Word) (s : State) : KeepsAllBut (fun p => p = .pc) s (jumpTo a s) := by
  intro p hp
  cases p with
  | pc => exact absurd rfl hp
  | _ => rfl

/-! ### Jumps -/

theorem jumpTo_pc_self {a : Word} {s : State} (h : a = s.pc) : jumpTo a s = s := by
  rw [h]
  rfl

/-- A jump to its own address leaves the state but for the flags (R110). -/
theorem step_jp_to_itself {nnn : Addr12} {s : State} (hi : FetchesInstr s (.jp nnn)) (hpc : nnn.toNat = s.pc.toNat) :
    step s = .next (clearFlags s) := by
  have ha : addrImm nnn = (clearFlags s).pc := BitVec.eq_of_toNat_eq ((addrImm_toNat nnn).trans hpc)
  rw [step_eq_exec hi, exec_jp, jumpTo_pc_self ha]

/-- Settles O30: the row is group 1, pc holds the operand zero-extended, and a jump to its own address writes the pc
that is there. -/
theorem jpSetsPc : Obligations.JpSetsPc :=
  ⟨encoded_jp, fun nnn s => ⟨_, exec_jp nnn s, addrImm_toNat nnn, keepsAllBut_jumpTo _ s⟩,
    fun _ _ hi hpc => step_jp_to_itself hi hpc⟩

/-- Settles O35: the row is group B, and a 12-bit address and a byte add up without wrap. -/
theorem jpV0AddsV0 : Obligations.JpV0AddsV0 :=
  ⟨encoded_jpV0, fun nnn s => ⟨_, exec_jpV0 nnn s, jpV0_target_toNat nnn _, keepsAllBut_jumpTo _ s⟩⟩

/-! ### The end of a run -/

theorem core_run_succ {n : Nat} {s t : State} (h : step s = .next t) : core.run (n + 1) s = core.run n t := by
  have hcore : core.step s = .next t := h
  simp only [Host.Core.run, hcore]

/-- The end of a run steps to itself but for the flags, and is again the end of a run. -/
theorem EndOfRun.step {s : State} (h : EndOfRun s) :
    Machine.step s = .next (clearFlags s) ∧ EndOfRun (clearFlags s) := by
  obtain ⟨nnn, hi, hpc⟩ := h
  exact ⟨step_jp_to_itself hi hpc, nnn, hi, hpc⟩

/-- Any number of steps from the end of a run completes there. -/
theorem EndOfRun.run {s : State} (h : EndOfRun s) (n : Nat) :
    ∃ t, core.run n s = .next t ∧ EndOfRun t ∧ t.pc = s.pc := by
  induction n generalizing s with
  | zero => exact ⟨s, rfl, h, rfl⟩
  | succ n ih =>
    obtain ⟨hs, hc⟩ := h.step
    rw [core_run_succ hs]
    exact ih hc

/-- Settles O31, by induction on the number of steps. -/
theorem endOfRunIsSafeForEver : Obligations.EndOfRunIsSafeForEver := by
  refine fun s h => ⟨fun n k _ => ?_, fun n t ht => ?_⟩
  · obtain ⟨t, ht, -⟩ := h.run k
    exact ⟨t, ht⟩
  · obtain ⟨u, hu, he, hpc⟩ := h.run n
    obtain rfl := Host.Outcome.next.inj (hu.symm.trans ht)
    exact ⟨he, hpc⟩

/-! ### Calls and returns -/

theorem exec_call_of_room (nnn : Addr12) {s : State} {k : Fin Config.stackDepth} (hk : k.val = s.sp.val) :
    ∃ t, exec (.call nnn) s = .next t ∧ t.stack[k.val] = s.pc ∧ t.sp.val = s.sp.val + 1 ∧ t.pc = addrImm nnn := by
  rcases execCall_cases nnn s with ⟨j, q, hj, hq, hc⟩ | ⟨hsp, -⟩
  · obtain rfl : j = k := Fin.ext (hj.trans hk.symm)
    exact ⟨_, hc, Vector.getElem_set_self _, hq, rfl⟩
  · have hk16 : k.val < 16 := k.isLt
    omega

/-- A call's frame names the one entry it writes. -/
theorem keepsAllBut_call {nnn : Addr12} {s t : State} {k : Fin Config.stackDepth} (hk : k.val = s.sp.val)
    (h : exec (.call nnn) s = .next t) : KeepsAllBut (fun p => p = .pc ∨ p = .sp ∨ p = .stackEntry k) s t := by
  refine fun p hp => exec_frame _ s t h p ?_
  rintro (rfl | rfl | ⟨j, hj, rfl⟩)
  · exact hp (.inl rfl)
  · exact hp (.inr (.inl rfl))
  · exact hp (.inr (.inr (congrArg Part.stackEntry (Fin.ext (hj.trans hk.symm)))))

/-- Settles O32: the row is group 2; with room the call writes the entry at sp, and with sp = 16 there is none. -/
theorem callPushesItsOwnAddress : Obligations.CallPushesItsOwnAddress := by
  refine ⟨encoded_call, fun nnn s => ⟨fun k hk => ?_, fun hsp => exec_call_eq_fault_iff.2 ⟨rfl, hsp⟩⟩⟩
  obtain ⟨t, ht, hentry, hsp, hpc⟩ := exec_call_of_room nnn hk
  exact ⟨t, ht, hentry, hsp, hpc ▸ addrImm_toNat nnn, keepsAllBut_call hk ht⟩

theorem exec_ret_of_entry {s : State} {k : Fin Config.stackDepth} (hk : k.val + 1 = s.sp.val) :
    ∃ t, exec .ret s = .next t ∧ t.sp.val = k.val ∧ t.pc = s.stack[k.val] + 2 := by
  rcases execRet_cases s with ⟨j, q, hj, hq, hc⟩ | ⟨hsp, -⟩
  · obtain rfl : j = k := Fin.ext (by omega)
    exact ⟨_, hc, hq, rfl⟩
  · omega

/-- Settles O33: the row is the word 00EE; with an entry the return reads the one below sp, and with sp = 0 there is
none. -/
theorem retPopsTheReturnAddress : Obligations.RetPopsTheReturnAddress := by
  refine ⟨encoded_ret, fun s => ⟨fun k hk => ?_, fun hsp => exec_ret_eq_fault_iff.2 ⟨rfl, hsp⟩⟩⟩
  obtain ⟨t, ht, hsp, hpc⟩ := exec_ret_of_entry hk
  exact ⟨t, ht, hsp, by rw [hpc, BitVec.toNat_add]; rfl, exec_frame _ _ _ ht⟩

/-- Settles O34: the entry below the callee's sp is the one that the call wrote. -/
theorem callThenReturnResumesAfterTheCall : Obligations.CallThenReturnResumesAfterTheCall := by
  intro nnn s t u h hsp hstack
  obtain ⟨k, q, hk, hq, rfl⟩ := exec_call_next h
  have hku : k.val + 1 = u.sp.val := by
    have hu : u.sp = q := hsp
    rw [hu, hk, hq]
  obtain ⟨r, hr, hrsp, hrpc⟩ := exec_ret_of_entry hku
  refine ⟨r, hr, ?_, Fin.ext (hrsp.trans hk)⟩
  have hentry : u.stack[k.val] = s.pc := by
    simp only [hstack]
    exact Vector.getElem_set_self _
  rw [hrpc, hentry]

end Sys2Proof.Machine
end

section
/-! PROOFS. The skips on registers (spec/42_skips.md R122, R123) and the keypad (46_keypad.md R170 to R172). -/

namespace Sys2Proof.Machine

/-! ### Registers -/

theorem exec_seReg (x y : Nibble) (s : State) :
    exec (.seReg x y) s = .next (skipIf (readV s x == readV s y) s) := rfl

theorem exec_sneReg (x y : Nibble) (s : State) :
    exec (.sneReg x y) s = .next (skipIf (readV s x != readV s y) s) := rfl

/-- Groups 5 and 9 reject every low nibble but 0 (R77; log 18). -/
theorem decodeWord_of_group59 {w : Word} (hop : fieldOp w = 0x5 ∨ fieldOp w = 0x9) (hn : fieldN w ≠ 0) :
    decodeWord w = .error (.unknownWord w) := by
  rcases hop with h | h
  · simp [decodeWord, h, show fieldN w ≠ 0#4 from hn]
  · simp [decodeWord, h, show fieldN w ≠ 0#4 from hn]

/-- Settles O37: the rows are groups 5 and 9 with low nibble 0, and both instructions are a `skipIf` on the comparison
of the two registers. -/
theorem skipsOnRegister : Obligations.SkipsOnRegister := by
  refine ⟨encoded_seReg, encoded_sneReg, fun w hop hn => decodeWord_of_group59 hop hn, fun x y s => ⟨?_, ?_⟩⟩
  · exact ⟨_, exec_seReg x y s, fun h => by simp [h], fun h => by simp [h], keepsAllBut_pc_skipIf _ s⟩
  · exact ⟨_, exec_sneReg x y s, fun h => by simp [h], fun h => by simp [h], keepsAllBut_pc_skipIf _ s⟩

/-! ### Keys -/

theorem exec_skp_of_key {x : Nibble} {s : State} {k : Fin Config.numKeys} (hk : k.val = (readV s x).toNat) :
    exec (.skp x) s = .next (skipIf s.keys[k.val] s) := by rw [exec_skp, withKey_of_lt hk]

theorem exec_sknp_of_key {x : Nibble} {s : State} {k : Fin Config.numKeys} (hk : k.val = (readV s x).toNat) :
    exec (.sknp x) s = .next (skipIf (!s.keys[k.val]) s) := by rw [exec_sknp, withKey_of_lt hk]

/-- Settles O51: the rows are group E with low bytes 9E and A1; up to 15 both instructions are a `skipIf` on the key
that Vx names, and above it there is no such key. -/
theorem skipsOnKey : Obligations.SkipsOnKey := by
  refine ⟨encoded_skp, encoded_sknp, fun x s => ⟨fun k hk => ⟨?_, ?_⟩, fun hgt => ⟨?_, ?_⟩⟩⟩
  · exact ⟨_, exec_skp_of_key hk, fun h => by simp [h], fun h => by simp [h], keepsAllBut_pc_skipIf _ s⟩
  · exact ⟨_, exec_sknp_of_key hk, fun h => by simp [h], fun h => by simp [h], keepsAllBut_pc_skipIf _ s⟩
  · rw [exec_skp, withKey_of_gt hgt]
  · rw [exec_sknp, withKey_of_gt hgt]

/-- A wait's frame (R172). -/
theorem keepsAllBut_wkey (x : Nibble) (s : State) :
    KeepsAllBut (fun p => p = .pc) s (if anyKey s then advance s else s) := fun p hp =>
  exec_frame _ _ _ (exec_wkey x s) p (by simpa [mayWrite] using hp)

/-- Settles O52: the row is group F with low byte 0A, and the test is whether some key is pressed. -/
theorem wkeyWaitsForAKey : Obligations.WkeyWaitsForAKey := by
  refine ⟨encoded_wkey, fun x s => ⟨_, exec_wkey x s, fun hk => ?_, fun hno => ?_, keepsAllBut_wkey x s⟩⟩
  · rw [if_pos ((anyKey_iff s).2 hk), advance_pc]
  · rw [if_neg]
    intro hany
    obtain ⟨k, hk⟩ := (anyKey_iff s).1 hany
    exact Bool.false_ne_true ((hno k).symm.trans hk)

end Sys2Proof.Machine
end

section
/-! PROOFS. The instructions with a flag (spec/44_alu.md R144 to R148): VF is written first, and the result that goes to
Vx reads the registers as that write left them (R150; log 11). -/

namespace Sys2Proof.Machine

theorem exec_addReg (x y : Nibble) (s : State) : exec (.addReg x y) s =
    .next (advance (flagThenResult x (carryOfAdd (readV s x) (readV s y)) (fun s1 => readV s1 x + readV s1 y) s)) := rfl

theorem exec_sub (x y : Nibble) (s : State) : exec (.sub x y) s =
    .next (advance (flagThenResult x (notBorrow (readV s x) (readV s y)) (fun s1 => readV s1 x - readV s1 y) s)) := rfl

theorem exec_shr (x y : Nibble) (s : State) : exec (.shr x y) s =
    .next (advance (flagThenResult x (lowBit (readV s x)) (fun s1 => readV s1 x >>> 1) s)) := rfl

theorem exec_subn (x y : Nibble) (s : State) : exec (.subn x y) s =
    .next (advance (flagThenResult x (notBorrow (readV s y) (readV s x)) (fun s1 => readV s1 y - readV s1 x) s)) := rfl

theorem exec_shl (x y : Nibble) (s : State) : exec (.shl x y) s =
    .next (advance (flagThenResult x (highBit (readV s x)) (fun s1 => readV s1 x <<< 1) s)) := rfl

/-! ### The two writes -/

/-- Vx holds the result, which reads the registers after the flag. -/
theorem readV_flagThenResult_self (x : Nibble) (f : Byte) (r : State → Byte) (s : State) :
    readV (advance (flagThenResult x f r s)) x = r (writeV s VF f) := by
  rw [readV_advance, readV_flagThenResult, if_pos rfl]

/-- VF holds the flag when it is not the destination. -/
theorem readV_flagThenResult_VF {x : Nibble} (hx : x ≠ VF) (f : Byte) (r : State → Byte) (s : State) :
    readV (advance (flagThenResult x f r s)) VF = f := by
  rw [readV_advance, readV_flagThenResult, if_neg hx.symm, if_pos rfl]

/-- The four cases of the tables of R144, R145 and R147: the state `t` left by `op` on Vx and Vy with the flag `f`. -/
def FlaggedCases (op : Byte → Byte → Byte) (f : Byte) (x y : Nibble) (s t : State) : Prop :=
  (x ≠ VF → y ≠ VF → readV t x = op (readV s x) (readV s y) ∧ readV t VF = f) ∧
  (x ≠ VF → y = VF → readV t x = op (readV s x) f ∧ readV t VF = f) ∧
  (x = VF → y ≠ VF → readV t VF = op f (readV s y)) ∧
  (x = VF → y = VF → readV t VF = op f f)

/-- A register that is VF reads as the flag, any other as before. -/
theorem flagThenResult_cases (op : Byte → Byte → Byte) (f : Byte) (x y : Nibble) (s : State) :
    FlaggedCases op f x y s (advance (flagThenResult x f (fun s1 => op (readV s1 x) (readV s1 y)) s)) := by
  refine ⟨fun hx hy => ⟨?_, readV_flagThenResult_VF hx f _ s⟩, fun hx hy => ⟨?_, readV_flagThenResult_VF hx f _ s⟩,
    fun hx hy => ?_, fun hx hy => ?_⟩
  · rw [readV_flagThenResult_self, readV_writeV_of_ne s f hx, readV_writeV_of_ne s f hy]
  · rw [readV_flagThenResult_self, readV_writeV_of_ne s f hx, hy, readV_writeV_self]
  · rw [hx, readV_flagThenResult_self, readV_writeV_self, readV_writeV_of_ne s f hy]
  · rw [hx, hy, readV_flagThenResult_self, readV_writeV_self]

/-! ### The flags as numbers -/

theorem toNat_carryOfAdd (a b : Byte) : (carryOfAdd a b).toNat = if 255 < a.toNat + b.toNat then 1 else 0 := by
  simp [carryOfAdd, b2n_toNat]

theorem toNat_notBorrow (a b : Byte) : (notBorrow a b).toNat = if b.toNat ≤ a.toNat then 1 else 0 := by
  simp [notBorrow, b2n_toNat]

theorem toNat_lowBit (a : Byte) : (lowBit a).toNat = a.toNat % 2 := by
  simp [lowBit, Nat.and_one_is_mod]

theorem toNat_highBit (a : Byte) : (highBit a).toNat = a.toNat / 128 := by
  simp [highBit, Nat.shiftRight_eq_div_pow]

/-! ### The result as a number -/

theorem toNat_sub_byte (a b : Byte) : (a - b).toNat = (a.toNat + 256 - b.toNat) % 256 := by
  bv_omega

theorem toNat_shiftRight_one (a : Byte) : (a >>> 1).toNat = a.toNat / 2 := by
  simp [Nat.shiftRight_eq_div_pow]

theorem toNat_shiftLeft_one (a : Byte) : (a <<< 1).toNat = 2 * a.toNat % 256 := by
  simp [Nat.shiftLeft_eq, Nat.mul_comm]

/-! ### The obligations -/

/-- Settles O42: the row is group 8 with low nibble 4, and in each of the four cases the sum wraps at 256. -/
theorem addRegInEveryCase : Obligations.AddRegInEveryCase := by
  refine ⟨encoded_addReg, fun x y s c hc => ?_⟩
  rw [← toNat_carryOfAdd] at hc
  obtain ⟨h1, h2, h3, h4⟩ := flagThenResult_cases (· + ·) (carryOfAdd (readV s x) (readV s y)) x y s
  refine ⟨_, exec_addReg x y s, fun hx hy => ?_, fun hx hy => ?_, fun hx hy => ?_, fun hx hy => ?_, rfl,
    exec_frame _ _ _ (exec_addReg x y s)⟩
  · rw [(h1 hx hy).1, (h1 hx hy).2, hc]
    exact ⟨BitVec.toNat_add _ _, rfl⟩
  · rw [(h2 hx hy).1, (h2 hx hy).2, hc]
    exact ⟨BitVec.toNat_add _ _, rfl⟩
  · rw [h3 hx hy, hc]
    exact BitVec.toNat_add _ _
  · have hle : c ≤ 1 := by rw [hc, toNat_carryOfAdd]; split <;> decide
    rw [h4 hx hy, BitVec.toNat_add, ← hc]
    omega

/-- Settles O43: the row is group 8 with low nibble 5, and in each of the four cases the difference wraps at 256. -/
theorem subInEveryCase : Obligations.SubInEveryCase := by
  refine ⟨encoded_sub, fun x y s c hc => ?_⟩
  rw [← toNat_notBorrow] at hc
  obtain ⟨h1, h2, h3, h4⟩ := flagThenResult_cases (· - ·) (notBorrow (readV s x) (readV s y)) x y s
  refine ⟨_, exec_sub x y s, fun hx hy => ?_, fun hx hy => ?_, fun hx hy => ?_, fun hx hy => ?_, rfl,
    exec_frame _ _ _ (exec_sub x y s)⟩
  · rw [(h1 hx hy).1, (h1 hx hy).2, hc]
    exact ⟨toNat_sub_byte _ _, rfl⟩
  · rw [(h2 hx hy).1, (h2 hx hy).2, hc]
    exact ⟨toNat_sub_byte _ _, rfl⟩
  · rw [h3 hx hy, hc]
    exact toNat_sub_byte _ _
  · rw [h4 hx hy]
    exact congrArg BitVec.toNat (BitVec.sub_self _)

/-- Settles O45: the row is group 8 with low nibble 7, the same difference the other way round. -/
theorem subnInEveryCase : Obligations.SubnInEveryCase := by
  refine ⟨encoded_subn, fun x y s c hc => ?_⟩
  rw [← toNat_notBorrow] at hc
  obtain ⟨h1, h2, h3, h4⟩ := flagThenResult_cases (fun a b => b - a) (notBorrow (readV s y) (readV s x)) x y s
  refine ⟨_, exec_subn x y s, fun hx hy => ?_, fun hx hy => ?_, fun hx hy => ?_, fun hx hy => ?_, rfl,
    exec_frame _ _ _ (exec_subn x y s)⟩
  · rw [(h1 hx hy).1, (h1 hx hy).2, hc]
    exact ⟨toNat_sub_byte _ _, rfl⟩
  · rw [(h2 hx hy).1, (h2 hx hy).2, hc]
    exact ⟨toNat_sub_byte _ _, rfl⟩
  · rw [h3 hx hy, hc]
    exact toNat_sub_byte _ _
  · rw [h4 hx hy]
    exact congrArg BitVec.toNat (BitVec.sub_self _)

/-- Settles O44: the row is group 8 with low nibble 6; with x = F what is shifted is the bit 0 or 1 itself. -/
theorem shrShiftsVxRight : Obligations.ShrShiftsVxRight := by
  refine ⟨encoded_shr, fun x y s => ⟨_, exec_shr x y s, fun hx => ⟨?_, ?_⟩, fun hx => ?_, rfl,
    exec_frame _ _ _ (exec_shr x y s)⟩⟩
  · rw [readV_flagThenResult_self, readV_writeV_of_ne s _ hx, toNat_shiftRight_one]
  · rw [readV_flagThenResult_VF hx, toNat_lowBit]
  · rw [hx, readV_flagThenResult_self, readV_writeV_self, toNat_shiftRight_one, toNat_lowBit]
    omega

/-- Settles O46: the row is group 8 with low nibble E; with x = F what is shifted is the bit 0 or 1 itself. -/
theorem shlShiftsVxLeft : Obligations.ShlShiftsVxLeft := by
  refine ⟨encoded_shl, fun x y s => ⟨_, exec_shl x y s, fun hx => ⟨?_, ?_⟩, fun hx => ?_, rfl,
    exec_frame _ _ _ (exec_shl x y s)⟩⟩
  · rw [readV_flagThenResult_self, readV_writeV_of_ne s _ hx, toNat_shiftLeft_one]
  · rw [readV_flagThenResult_VF hx, toNat_highBit]
  · have hlt := (readV s VF).isLt
    rw [hx, readV_flagThenResult_self, readV_writeV_self, toNat_shiftLeft_one, toNat_highBit]
    omega

end Sys2Proof.Machine
end

section
/-! PROOFS. The random byte and the sum in I (spec/45_index_random.md R161, R162), and the memory instructions
(48_memory_ops.md R190 to R192): digits, register blocks, their round trip, and a store that the next fetch sees. -/

namespace Sys2Proof.Machine

/-! ### Random byte and index -/

theorem exec_rnd (x : Nibble) (kk : Byte) (s : State) : exec (.rnd x kk) s =
    .next (advance { writeV s x (Config.rndByte s.draws &&& kk) with draws := s.draws + 1 }) := rfl

theorem exec_addI (x : Nibble) (s : State) :
    exec (.addI x) s = .next (advance (writeI s (s.i + wordOfByte (readV s x)))) := rfl

/-- Settles O48: the row is group C; Vx holds the word operation on the free byte and kk, which is taken bit by bit. -/
theorem rndMasksTheFreeByte : Obligations.RndMasksTheFreeByte := by
  refine ⟨encoded_rnd, fun x kk s => ?_⟩
  have hx : readV (advance { writeV s x (Config.rndByte s.draws &&& kk) with draws := s.draws + 1 }) x =
      Config.rndByte s.draws &&& kk := readV_writeV_self s x _
  refine ⟨_, exec_rnd x kk s, fun b _ => ?_, ?_, rfl, rfl, exec_frame _ _ _ (exec_rnd x kk s)⟩
  · rw [hx, BitVec.getLsbD_and]
  · rw [hx, BitVec.and_assoc, BitVec.and_not_self]
    exact BitVec.and_zero

/-- Settles O49: the row is group F with low byte 1E, the sum wraps at 65536, and the last clause is that of every
writer of I. -/
theorem addIWrapsWithoutFlag : Obligations.AddIWrapsWithoutFlag := by
  refine ⟨encoded_addI, fun x s => ⟨_, exec_addI x s, ?_, rfl, exec_frame _ _ _ (exec_addI x s)⟩,
    fun i s t h hs ht => addI_of_index_above h hs ht⟩
  rw [advance_i, writeI_i, BitVec.toNat_add, wordOfByte_toNat]

/-! ### Access checks -/

/-- The bytes of an access exist when its end does (R53, R56). -/
theorem access_of_end {base n : Nat} (h : n = 0 ∨ base + n ≤ 0x1000) : ∀ r, r < n → base + r ≤ 0xFFF := by
  omega

/-- An access that passes the end of memory has a lowest address above 0xFFF (R206). -/
theorem exists_lowestAbove {base n : Nat} (hn : n ≠ 0) (h : 0x1000 < base + n) : ∃ a, LowestAbove a base n := by
  cases ha : accessFault base n with
  | none => have := access_within (accessFault_eq_none.1 ha) hn; omega
  | some a => exact ⟨a, accessFault_eq_some.1 ha⟩

/-- So the instruction that makes it raises a diagnostic with that address. -/
theorem withAccess_of_past_end {n : Nat} (s k : State) (hn : n ≠ 0) (h : 0x1000 < s.i.toNat + n) :
    ∃ a, LowestAbove a s.i.toNat n ∧ withAccess n s k = .fault (.memoryOutOfRange a) := by
  obtain ⟨a, ha⟩ := exists_lowestAbove hn h
  exact ⟨a, ha, withAccess_eq_fault_iff.2 ⟨a, rfl, ha⟩⟩

theorem toNat_ne_zero {x : Nibble} (h : x ≠ 0) : x.toNat ≠ 0 := fun h0 => h (BitVec.eq_of_toNat_eq h0)

theorem toNat_zero_or {x : Nibble} {p : Prop} (h : x = 0 ∨ p) : x.toNat = 0 ∨ p := h.imp_left fun hx => by simp [hx]

/-! ### Decimal digits -/

/-- The three digits read back where they are stored (R190). -/
theorem readMem_storeDigits (s : State) (a : Nat) (b : Byte) :
    (readMem (writeBytes s a (decimalDigits b)) a).toNat = b.toNat / 100 ∧
    (readMem (writeBytes s a (decimalDigits b)) (a + 1)).toNat = b.toNat / 10 % 10 ∧
    (readMem (writeBytes s a (decimalDigits b)) (a + 2)).toNat = b.toNat % 10 := by
  have hb := b.isLt
  have hdigit (j : Nat) (hj : j < 3) := congrArg BitVec.toNat (readMem_writeBytes_add s a j (decimalDigits b) hj)
  refine ⟨(hdigit 0 (by decide)).trans ?_, (hdigit 1 (by decide)).trans ?_, (hdigit 2 (by decide)).trans ?_⟩
  · exact Nat.mod_eq_of_lt (by omega)
  · exact Nat.mod_eq_of_lt (by omega)
  · exact Nat.mod_eq_of_lt (by omega)

/-- An address outside the bytes stored keeps its byte. -/
theorem readMem_writeBytes_outside {s : State} {a c : Nat} {bs : List Byte} (h : c < a ∨ a + bs.length ≤ c) :
    readMem (writeBytes s a bs) c = readMem s c :=
  readMem_writeBytes_of_ne fun j hj => by omega

/-- The frame of a store from I, byte addresses apart. -/
theorem keepsAllBut_store (s : State) (a : Nat) (bs : List Byte) :
    KeepsAllBut (fun p => p = .pc ∨ ∃ a, p = .byte a) s (advance (writeBytes s a bs)) := by
  intro p hp
  cases p with
  | pc => exact absurd (.inl rfl) hp
  | byte c => exact absurd (.inr ⟨c, rfl⟩) hp
  | _ => rfl

/-- Settles O55: the row is group F with low byte 33; the three digits are stored in one block, and a block that passes
the end of memory raises a diagnostic. -/
theorem ldBStoresTheDecimalDigits : Obligations.LdBStoresTheDecimalDigits := by
  refine ⟨encoded_ldB, fun x s => ⟨fun hend => ?_, fun hpast => withAccess_of_past_end s _ (by decide) (by omega)⟩⟩
  obtain ⟨hhundreds, htens, hunits⟩ := readMem_storeDigits s s.i.toNat (readV s x)
  have hout (a : Nat) (ha : a < s.i.toNat ∨ s.i.toNat + 2 < a) :
      a < s.i.toNat ∨ s.i.toNat + (decimalDigits (readV s x)).length ≤ a := ha
  exact ⟨_, exec_ldB_next_iff.2 ⟨rfl, access_of_end (.inr (by omega))⟩, hhundreds, htens, hunits,
    fun a ha => readMem_writeBytes_outside (hout a ha), rfl, keepsAllBut_store s _ _⟩

/-! ### Register blocks -/

theorem readMem_storeRegs {s : State} {n : Nat} {k : Nibble} (hk : k.toNat < n) (a : Nat) :
    readMem (writeBytes s a (firstRegs s n)) (a + k.toNat) = readV s k := by
  rw [readMem_writeBytes_add s a k.toNat _ (by simpa using hk), firstRegs_getElem, BitVec.ofNat_toNat,
    BitVec.setWidth_eq]

/-- After a completed Fx55 each register of the block is in memory (R191). -/
theorem readMem_of_stRegs {x k : Nibble} {s t : State} (h : exec (.stRegs x) s = .next t) (hk : k.toNat < x.toNat) :
    readMem t (s.i.toNat + k.toNat) = readV s k := by
  obtain ⟨rfl, -⟩ := exec_stRegs_next_iff.1 h
  exact readMem_storeRegs hk _

/-- Settles O56: the row is group F with low byte 55; the block is stored in one piece, and a block that passes the end
of memory raises a diagnostic. -/
theorem stRegsStoresXRegisters : Obligations.StRegsStoresXRegisters := by
  refine ⟨encoded_stRegs, fun x s => ⟨fun hend => ?_, fun hx hpast =>
    withAccess_of_past_end s _ (toNat_ne_zero hx) hpast⟩⟩
  have ht := exec_stRegs_next_iff.2 ⟨rfl, access_of_end (toNat_zero_or hend)⟩
  exact ⟨_, ht, fun k hk => readMem_of_stRegs ht hk, fun a ha => readMem_writeBytes_outside (by simpa using ha), rfl,
    keepsAllBut_store s _ _⟩

/-- What loading a block leaves in the registers (R192). -/
theorem readV_loadRegs (s : State) (x k : Nibble) (a : Nat) :
    readV (writeRegs s 0 (readBytes s a x.toNat)) k =
      if k.toNat < x.toNat then readMem s (a + k.toNat) else readV s k := by
  have hx := x.isLt
  rw [readV_writeRegs _ _ _ _ (by simp; omega), if_pos (Nat.zero_le _), Nat.sub_zero, readBytes_getElem?]
  split <;> rfl

/-- After a completed Fx65 the registers below x hold the block and the others what they held. -/
theorem readV_of_ldRegs {x : Nibble} {s t : State} (h : exec (.ldRegs x) s = .next t) (k : Nibble) :
    readV t k = if k.toNat < x.toNat then readMem s (s.i.toNat + k.toNat) else readV s k := by
  obtain ⟨rfl, -⟩ := exec_ldRegs_next_iff.1 h
  exact readV_loadRegs s x k _

/-- Settles O57: the row is group F with low byte 65; the registers below x are loaded, and a block that passes the end
of memory raises a diagnostic. -/
theorem ldRegsLoadsXRegisters : Obligations.LdRegsLoadsXRegisters := by
  refine ⟨encoded_ldRegs, fun x s => ⟨fun hend => ?_, fun hx hpast =>
    withAccess_of_past_end s _ (toNat_ne_zero hx) hpast⟩⟩
  have ht := exec_ldRegs_next_iff.2 ⟨rfl, access_of_end (toNat_zero_or hend)⟩
  exact ⟨_, ht, fun k hk => by rw [readV_of_ldRegs ht, if_pos hk], pc_of_ldRegs ht, exec_frame _ _ _ ht⟩

/-- Settles O58: the load reads the bytes that the store wrote, which no register in between can change. -/
theorem storeThenLoadRoundTrips : Obligations.StoreThenLoadRoundTrips := by
  intro x s t u h hi hmem hfont
  have hui : u.i = s.i := hi.trans (exec_frame _ s t h .index (by simp [mayWrite]))
  have hr := exec_ldRegs_next_iff.2 ⟨rfl, hui ▸ (exec_stRegs_next_iff.1 h).2⟩
  refine ⟨_, hr, fun k hk => ?_, fun k hk => ?_⟩
  · rw [readV_of_ldRegs hr, if_pos hk, readMem_congr hmem hfont, hui, readMem_of_stRegs h hk]
  · rw [readV_of_ldRegs hr, if_neg (Nat.not_lt.2 hk)]

/-- Settles O59: pc has come to I, so the two bytes that the next fetch reads are those of V0 and V1. -/
theorem storeIsSeenByTheNextFetch : Obligations.StoreIsSeenByTheNextFetch := by
  intro x s t i hi hx h hipc hpc hd
  rw [step_eq_exec hi] at h
  have ht : t.pc = s.i := by
    rw [(exec_stRegs_next_iff.1 h).1, hipc]
    rfl
  have hbyte (k : Nibble) (hk : k.toNat < 2) : readMem t (t.pc.toNat + k.toNat) = readV s k := by
    rw [ht]
    exact readMem_of_stRegs (s := clearFlags s) h (Nat.lt_of_lt_of_le hk hx)
  have hlo : 0x200 ≤ t.pc.toNat := by
    obtain ⟨w, ⟨hlo, hhi, -⟩, -⟩ := hi
    rw [ht, hipc]
    bv_omega
  refine stepRunsTheDecodedInstruction t i hlo hpc ?_
  have h0 : readMem t t.pc.toNat = readV s 0 := hbyte 0 (by decide)
  have h1 : readMem t (t.pc.toNat + 1) = readV s 1 := hbyte 1 (by decide)
  rw [h0, h1]
  exact hd

end Sys2Proof.Machine
end

section
/-! PROOFS. The display instructions (spec/40_display.md R100 to R105): clearing, drawing, and drawing twice. -/

namespace Sys2Proof.Machine

/-! ### CLS -/

theorem exec_cls (s : State) : exec .cls s = .next (advance { s with fb := 0, displayFlag := true }) := rfl

theorem keepsAllBut_cls (s : State) : KeepsAllBut (fun p => p = .pc ∨ p = .displayFlag ∨ ∃ k, p = .pixel k) s
    (advance { s with fb := 0, displayFlag := true }) := by
  refine fun p hp => exec_frame _ _ _ (exec_cls s) p ?_
  rintro (rfl | rfl | ⟨k, -, rfl⟩)
  · exact hp (.inl rfl)
  · exact hp (.inr (.inl rfl))
  · exact hp (.inr (.inr ⟨k, rfl⟩))

/-- Settles O27: the row is the word 00E0, and every pixel of the framebuffer 0 reads 0. -/
theorem clsClearsTheFramebuffer : Obligations.ClsClearsTheFramebuffer :=
  ⟨encoded_cls, fun s => ⟨_, exec_cls s, fun _ => BitVec.getLsbD_zero, rfl, rfl, keepsAllBut_cls s⟩⟩

/-! ### DRW -/

/-- Drawing's frame: the sprite's pixels, VF, pc and display_flag. -/
theorem keepsAllBut_drw {x y n : Nibble} {s t : State} (h : exec (.drw x y n) s = .next t) :
    KeepsAllBut (fun p => p = .pc ∨ p = .reg VF ∨ p = .displayFlag ∨ ∃ k, p = .pixel k ∧ Covers s x y n k) s t := by
  refine fun p hp => exec_frame _ _ _ h p ?_
  rintro (rfl | rfl | rfl | hk)
  · exact hp (.inl rfl)
  · exact hp (.inr (.inr (.inl rfl)))
  · exact hp (.inr (.inl rfl))
  · exact hp (.inr (.inr (.inr hk)))

section
variable {x y n : Nibble} {s t : State}

/-- What a completed draw does to a pixel (R101). -/
theorem pixel_of_drw (h : exec (.drw x y n) s = .next t) (k : Nat) :
    (Covers s x y n k → pixel t k = !pixel s k) ∧ (¬ Covers s x y n k → pixel t k = pixel s k) := by
  obtain ⟨rfl, -, hg⟩ := exec_drw_next_iff.1 h
  exact pixel_drwState hg k

/-- VF after a completed draw (R101): whether some covered pixel was 1. -/
theorem readV_VF_of_drw (h : exec (.drw x y n) s = .next t) :
    ∃ c, readV t VF = b2n c ∧ (c = true ↔ ∃ k, Covers s x y n k ∧ pixel s k = true) := by
  obtain ⟨rfl, -, hg⟩ := exec_drw_next_iff.1 h
  exact ⟨_, by rw [readV_drwState, if_pos rfl], drw_collision hg⟩

theorem readV_VF_of_drw_eq_one_iff (h : exec (.drw x y n) s = .next t) :
    readV t VF = 1 ↔ ∃ k, Covers s x y n k ∧ pixel s k = true := by
  obtain ⟨c, hc, hiff⟩ := readV_VF_of_drw h
  rw [hc, ← hiff]
  cases c <;> decide

theorem readV_VF_of_drw_eq_zero_or_one (h : exec (.drw x y n) s = .next t) : readV t VF = 0 ∨ readV t VF = 1 := by
  obtain ⟨c, hc, -⟩ := readV_VF_of_drw h
  rw [hc]
  cases c <;> decide

end

/-- Settles O28: the row is group D; the checks pass by hypothesis, and the drawing laws give each pixel and VF. -/
theorem drwXorsTheSpriteAndReportsCollision : Obligations.DrwXorsTheSpriteAndReportsCollision := by
  refine ⟨encoded_drw, fun x y n s hr hg => ?_⟩
  have h := exec_drw_next_iff.2 ⟨rfl, hr, find_drwPixels_eq_none.2 hg⟩
  refine ⟨_, h, fun k => (pixel_of_drw h k).1, (readV_VF_of_drw_eq_one_iff h).2, fun hno => ?_, rfl, rfl,
    keepsAllBut_drw h⟩
  refine (readV_VF_of_drw_eq_zero_or_one h).resolve_right fun h1 => ?_
  obtain ⟨k, hk, hp⟩ := (readV_VF_of_drw_eq_one_iff h).1 h1
  exact Bool.false_ne_true ((hno k hk).symm.trans hp)

/-! ### Drawing twice -/

/-- A draw that does not use VF as a coordinate leaves its sprite where it was. -/
theorem covers_of_drw {x y n : Nibble} {s t : State} (hx : x ≠ VF) (hy : y ≠ VF) (h : exec (.drw x y n) s = .next t)
    (k : Nat) : Covers t x y n k ↔ Covers s x y n k := by
  obtain ⟨rfl, -⟩ := exec_drw_next_iff.1 h
  have hvx : readV (drwState x y n s) x = readV s x := by rw [readV_drwState, if_neg hx]
  have hvy : readV (drwState x y n s) y = readV s y := by rw [readV_drwState, if_neg hy]
  unfold Covers
  rw [hvx, hvy]
  exact Iff.rfl

/-- Settles O29: the sprite covers the same pixels both times, so each is inverted twice, and it is 1 before the second
draw exactly when it was 0 before the first. -/
theorem drawingTwiceRestoresTheFramebuffer : Obligations.DrawingTwiceRestoresTheFramebuffer := by
  intro x y n s t u hx hy hst htu
  have hcov := covers_of_drw hx hy hst
  refine ⟨BitVec.eq_of_getLsbD_eq fun k _ => ?_, readV_VF_of_drw_eq_zero_or_one htu, ?_⟩
  · change pixel u k = pixel s k
    by_cases hk : Covers s x y n k
    · rw [(pixel_of_drw htu k).1 ((hcov k).2 hk), (pixel_of_drw hst k).1 hk, Bool.not_not]
    · rw [(pixel_of_drw htu k).2 (mt (hcov k).1 hk), (pixel_of_drw hst k).2 hk]
  · rw [readV_VF_of_drw_eq_one_iff htu]
    refine exists_congr fun k => ?_
    rw [hcov k]
    refine and_congr_right fun hk => ?_
    rw [(pixel_of_drw hst k).1 hk, Bool.not_eq_true']

end Sys2Proof.Machine
end
